-- ==== Sys2Proof/Word.lean ====
section
/-! DEFINITION. The widths the engine works with (spec/00_scope.md R13, spec/30_encoding.md R60, R63).
Bit 0 is the least significant bit of every value (R10), and every value is unsigned (R11). -/
namespace Sys2Proof

/-- A field element, a block byte, a cell of `BUF`, `S`, `WA`, `WB` or `SBOX`: 8 bits. -/
abbrev Byte := BitVec 8

/-- Half a byte: an S-box operand inside its legal range. -/
abbrev Nibble := BitVec 4

/-- A command word, presented whole (R49, R60). -/
abbrev Cmd := BitVec 32

/-- A response word, presented whole (R49, R63). -/
abbrev Rsp := BitVec 16

/-- An operand field `A` or `B`: 12 bits, wider than any legal range (R62). -/
abbrev Operand := BitVec 12

/-- The operand `X` of `DEG`: 24 bits (R60, R62). -/
abbrev WideOperand := BitVec 24

/-- A Word: four field elements, element `i` the coefficient of `x^i` (R23, R45). -/
abbrev FieldWord := Vector Byte 4

/-- A Block: sixteen bytes (R21, R43). -/
abbrev Block := Vector Byte 16

/-- The State Matrix: four rows of four cells, first index row, second index column (R22). -/
abbrev StateMatrix := Vector (Vector Byte 4) 4

end Sys2Proof
end

