-- ==== Sys2Proof/Syntax.lean ====
section
/-! DEFINITION. The twenty commands of the engine (spec/30_encoding.md R65), one constructor per row of
spec/opcode_table.json. Operands are the raw fields `A`, `B` and `X` of the command word (R60, R61), so every term of
`Instr` has an encoding; whether an operand is in its legal range is the command's own check (R62), not syntax. -/
namespace Sys2Proof

/-- A command with its operand fields. -/
inductive Instr where
  /-- `CLR`: empty the buffer (R81). -/
  | clr
  /-- `PUSH b`: append one byte to the buffer (R82). -/
  | push (b : Operand)
  /-- `RDB i`: read one byte of the buffer (R83). -/
  | rdb (i : Operand)
  /-- `DEG x`: degree of a polynomial (R91). -/
  | deg (x : WideOperand)
  /-- `GMUL a, b`: multiply two field elements (R93). -/
  | gmul (a b : Operand)
  /-- `GINV a`: multiplicative inverse of a field element (R95). -/
  | ginv (a : Operand)
  /-- `XSUM`: XOR sum of the bytes in the buffer (R97). -/
  | xsum
  /-- `LDWA`: load Word register `WA` from the buffer (R99). -/
  | ldwa
  /-- `LDWB`: load Word register `WB` from the buffer (R100). -/
  | ldwb
  /-- `WMUL`: multiply the two Word registers (R101). -/
  | wmul
  /-- `SBOXV h, l`: compute one S-box value without the table (R111). -/
  | sboxv (h l : Operand)
  /-- `SBGEN`: build the S-box table now (R113). -/
  | sbgen
  /-- `SBRD h, l`: read one entry of the S-box table (R114). -/
  | sbrd (h l : Operand)
  /-- `LDST`: load the State Matrix from the Block in the buffer (R120). -/
  | ldst
  /-- `RDST`: read the State Matrix back into the buffer (R121). -/
  | rdst
  /-- `SUB`: substitute every byte of the State Matrix (R130). -/
  | sub
  /-- `SHR`: rotate each row of the State Matrix left by its row number (R131). -/
  | shr
  /-- `MIX`: multiply each column of the State Matrix by the fixed polynomial (R132). -/
  | mix
  /-- `DBL`: shift the Block in the buffer left by one bit (R141). -/
  | dbl
  /-- `DBLX`: double the Block in the buffer, with the conditional XOR (R142). -/
  | dblx
deriving DecidableEq, Repr

end Sys2Proof
end

