-- ==== Sys2Proof/Decode.lean ====
section
/-! DEFINITION. Decoding a command word (spec/30_encoding.md R60 to R62, steps 1 and 2 of R70), total on every 32-bit word
and rejecting by name, and after it the encoder, from the same tables (R61, R65). -/
namespace Sys2Proof

/-- Why a word is no command (R66): both kinds are answered with `IllegalCommand`. -/
inductive DecodeError where
  /-- (a) The opcode is not in the table. -/
  | unassignedOpcode (op : BitVec 8)
  /-- (b), (c) A field the format does not use is not zero. -/
  | unusedFieldNotZero (op : BitVec 8)
deriving DecidableEq, Repr

/-- `OP = CMD[31:24]` (R60). -/
def fieldOp (w : Cmd) : BitVec 8 := w.extractLsb' 24 8

/-- `A = CMD[23:12]` (R60). -/
def fieldA (w : Cmd) : Operand := w.extractLsb' 12 12

/-- `B = CMD[11:0]` (R60). -/
def fieldB (w : Cmd) : Operand := w.extractLsb' 0 12

/-- `X = CMD[23:0]` (R60). -/
def fieldX (w : Cmd) : WideOperand := w.extractLsb' 0 24

/-- Format `N`: both operand fields must be zero (R61). -/
def formatN (w : Cmd) (i : Instr) : Except DecodeError Instr :=
  if fieldX w = 0 then .ok i else .error (.unusedFieldNotZero (fieldOp w))

/-- Format `A`: one operand, field `B` must be zero (R61). -/
def formatA (w : Cmd) (f : Operand → Instr) : Except DecodeError Instr :=
  if fieldB w = 0 then .ok (f (fieldA w)) else .error (.unusedFieldNotZero (fieldOp w))

/-- Format `AB`: two operands (R61). -/
def formatAB (w : Cmd) (f : Operand → Operand → Instr) : Except DecodeError Instr :=
  .ok (f (fieldA w) (fieldB w))

/-- Format `X`: one wide operand (R61). -/
def formatX (w : Cmd) (f : WideOperand → Instr) : Except DecodeError Instr :=
  .ok (f (fieldX w))

/-- The command a word spells, or why it spells none (R65, R66, R70 steps 1 and 2). -/
def decode (w : Cmd) : Except DecodeError Instr :=
  match (fieldOp w).toNat with
  | 0x01 => formatN w .clr
  | 0x02 => formatA w .push
  | 0x03 => formatA w .rdb
  | 0x10 => formatX w .deg
  | 0x11 => formatAB w .gmul
  | 0x12 => formatA w .ginv
  | 0x13 => formatN w .xsum
  | 0x14 => formatN w .ldwa
  | 0x15 => formatN w .ldwb
  | 0x16 => formatN w .wmul
  | 0x20 => formatAB w .sboxv
  | 0x21 => formatN w .sbgen
  | 0x22 => formatAB w .sbrd
  | 0x30 => formatN w .ldst
  | 0x31 => formatN w .rdst
  | 0x40 => formatN w .sub
  | 0x41 => formatN w .shr
  | 0x42 => formatN w .mix
  | 0x50 => formatN w .dbl
  | 0x51 => formatN w .dblx
  | _ => .error (.unassignedOpcode (fieldOp w))

/-- The opcode of each command (R65). -/
def opcodeOf : Instr → BitVec 8
  | .clr => 0x01#8
  | .push _ => 0x02#8
  | .rdb _ => 0x03#8
  | .deg _ => 0x10#8
  | .gmul _ _ => 0x11#8
  | .ginv _ => 0x12#8
  | .xsum => 0x13#8
  | .ldwa => 0x14#8
  | .ldwb => 0x15#8
  | .wmul => 0x16#8
  | .sboxv _ _ => 0x20#8
  | .sbgen => 0x21#8
  | .sbrd _ _ => 0x22#8
  | .ldst => 0x30#8
  | .rdst => 0x31#8
  | .sub => 0x40#8
  | .shr => 0x41#8
  | .mix => 0x42#8
  | .dbl => 0x50#8
  | .dblx => 0x51#8

/-- The operand bits `CMD[23:0]` of each command (R61): unused fields are zero. -/
def operandBits : Instr → WideOperand
  | .push a | .rdb a | .ginv a => a ++ (0 : Operand)
  | .gmul a b | .sboxv a b | .sbrd a b => a ++ b
  | .deg x => x
  | .clr | .xsum | .ldwa | .ldwb | .wmul | .sbgen | .ldst | .rdst
  | .sub | .shr | .mix | .dbl | .dblx => 0

/-- The word that spells a command (R60, R61, R65). -/
def encode (i : Instr) : Cmd := opcodeOf i ++ operandBits i

/-- The instruction the decoder reads from a word numbered as spec/opcode_table.json numbers it. A command word is
presented whole (spec/20_memory.md R49), so there is no byte order to undo; bits at and above `nbits` are zero. -/
def decodeTableWord (nbits w : Nat) : Option Instr :=
  match decode (BitVec.ofNat 32 (w % 2 ^ nbits)) with
  | .ok i => some i
  | .error _ => none

end Sys2Proof
end

