-- ==== Sys2Proof/Machine/Operands.lean ====
section
/-! DEFINITION. Operands (spec/30_encoding.md R62): range checks on the 12-bit fields, the parts of a field a command uses,
and the bits and nibbles of a byte (spec/00_scope.md R10, spec/20_memory.md R46, R48). -/
namespace Sys2Proof.Machine

/-- Is the field a field element or byte, 0..255? (R62) -/
def isByte (a : Operand) : Bool := a.toNat ≤ 255

/-- Is the field a nibble, 0..15? (R62) -/
def isNibble (a : Operand) : Bool := a.toNat ≤ 15

/-- `A[7:0]`. -/
def lowByte (a : Operand) : Byte := a.extractLsb' 0 8

/-- `A[3:0]`. -/
def lowNibble (a : Operand) : Nibble := a.extractLsb' 0 4

/-- `hi(v) = v[7:4]`. -/
def hiNib (v : Byte) : Nibble := v.extractLsb' 4 4

/-- `lo(v) = v[3:0]`. -/
def loNib (v : Byte) : Nibble := v.extractLsb' 0 4

/-- `x = (h << 4) | l`: the byte two nibbles compose (R48). -/
def composeByte (h l : Nibble) : Byte := h ++ l

/-- The byte whose bit `i` is `f i`. -/
def byteOfBits (f : Nat → Bool) : Byte :=
  BitVec.ofBool (f 7) ++ BitVec.ofBool (f 6) ++ BitVec.ofBool (f 5) ++ BitVec.ofBool (f 4) ++
    BitVec.ofBool (f 3) ++ BitVec.ofBool (f 2) ++ BitVec.ofBool (f 1) ++ BitVec.ofBool (f 0)

/-- A one-bit result as the byte `0x00` or `0x01` (R64). -/
def byteOfBool (b : Bool) : Byte := if b then 1 else 0

end Sys2Proof.Machine
end

