-- ==== Sys2Proof/Machine/Flags.lean ====
section
/-! DEFINITION. The engine has no flags (spec/10_state.md R26); "the only status the host can see is the response word"
(R27). This file is that word: the error codes (spec/60_exceptions.md R150) and the fields (spec/30_encoding.md R63). -/
namespace Sys2Proof.Machine

/-- The outcome of a command (R150). -/
inductive Err where
  | ok
  | invalidLength
  | invalidArgument
  | illegalCommand
deriving DecidableEq, Repr

/-- The numeric code of an outcome (R63, R150). -/
def Err.code : Err → BitVec 2
  | .ok => 0
  | .invalidLength => 1
  | .invalidArgument => 2
  | .illegalCommand => 3

/-- The response word: `ERR = RSP[15:14]`, `LEN = RSP[13:8]`, `VAL = RSP[7:0]` (R63). -/
def packRsp (e : Err) (len : Fin 33) (val : Byte) : Rsp := e.code ++ BitVec.ofNat 6 len.val ++ val

/-- The field `ERR` of a response word (R63). -/
def rspErr (r : Rsp) : BitVec 2 := r.extractLsb' 14 2

/-- The field `LEN` of a response word (R63). -/
def rspLen (r : Rsp) : BitVec 6 := r.extractLsb' 8 6

/-- The field `VAL` of a response word (R63). -/
def rspVal (r : Rsp) : Byte := r.extractLsb' 0 8

end Sys2Proof.Machine
end

