-- ==== Sys2Proof/Config.lean ====
section
/-! DEFINITION. The engine's fixed parameters (spec/00_scope.md R6: "Every parameter of the engine is fixed; the model
takes none as an argument") and the one free value the spec leaves: what a data cell holds after reset
(spec/10_state.md R31). The sizes of R6 (16-byte block, 4-byte word, 4×4 matrix, 32-byte buffer, 256-entry table, the
field widths) stand as literals in the types that use them. -/
namespace Sys2Proof.Config

/-- `FIELD_MODULUS`: `x^8+x^4+x^3+x+1`, nine bits. -/
def fieldModulus : BitVec 9 := 0x11B#9

/-- `FIELD_DEGREE`: the degree of the modulus. -/
def fieldDegree : Int := 8

/-- `AFFINE_CONST`: the constant of the S-box's affine step. -/
def affineConst : Byte := 0x63#8

/-- `MIX_POLY`, coefficient of `x^0` first (R6, R45). -/
def mixPoly : FieldWord := #v[0x02#8, 0x01#8, 0x01#8, 0x03#8]

/-- `DBL_CONST`: what `DBLX` XORs into the last byte when a 1 was shifted out. -/
def dblConst : Byte := 0x87#8

/-- The name of one data cell of the engine, for the free values below. -/
inductive CellName where
  | buf (i : Nat)
  | s (r c : Nat)
  | wa (i : Nat)
  | wb (i : Nat)
  | sbox (x : Nat)
deriving DecidableEq, Repr

/-- FREE VALUE (log entry 1). What the data cell `c` holds after the `n`-th reset: "each cell holds some 8-bit value,
fixed at reset, that no rule constrains" (R31). It has no body: nothing can be proved of its value. -/
opaque resetCell (n : Nat) (c : CellName) : Byte

end Sys2Proof.Config
end

