-- ==== Sys2Proof/Machine/State.lean ====
section
/-! DEFINITION. The state: the engine's seven elements (spec/10_state.md R20) and, beside them, the host's side of the
command port and the counter of the free values (log entries 2, 3, 4). The engine has no program counter, flags, control
registers or memory (R24 to R27, spec/20_memory.md R40). -/
namespace Sys2Proof.Machine

/-- What the host can do to the engine between two commands (spec/70_reset_and_hazards.md R188). -/
inductive HostMove where
  /-- Present a command word: any of the 2^32 words. -/
  | command (w : Cmd)
  /-- Assert reset. -/
  | reset
deriving DecidableEq, Repr

/-- The engine and the host's side of its port. -/
structure State where
  /-- `BUF[0..31]` (R20, R21). -/
  buf : Vector Byte 32
  /-- `LEN`: 6 bits, values 0..32 (R13, R20, R21). -/
  len : Fin 33
  /-- `S[r][c]`: the State Matrix, row first (R20, R22). -/
  s : StateMatrix
  /-- `WA[0..3]` (R20, R23). -/
  wa : FieldWord
  /-- `WB[0..3]` (R20, R23). -/
  wb : FieldWord
  /-- `SBOX[0..255]` (R20, R28). -/
  sbox : Vector Byte 256
  /-- `SBV`: whether `SBOX` has been built (R20, R28). -/
  sbv : Bool
  /-- The model's own: the host's moves still to come, the next one first (R9, R25, R188; log entry 3). -/
  pending : List HostMove
  /-- The model's own: the responses given so far, oldest first; the run's observation (R9; log entry 4). -/
  responses : List Rsp
  /-- The model's own: how many times reset has been asserted; it indexes `Config.resetCell` (log entry 2). -/
  resets : Nat
deriving DecidableEq, Repr

/-- Reasons to stop with a fault: NONE. "The engine cannot fault", be stuck or hang (spec/60_exceptions.md R164); its
errors are answers, "not a fault that ends the run" (R166). -/
inductive Fault where
deriving DecidableEq, Repr

/-- Reasons to refuse an instruction. The engine "refuses nothing" (R164), so no meaning raises one. -/
inductive Refusal where
  /-- Raised only by an arm of `exec` whose instruction has no meaning yet (there is none). Safe: the run stops. -/
  | notModelled (mnemonic : String)
deriving DecidableEq, Repr

/-- The result of one step. -/
abbrev Result := Host.Outcome State Fault Refusal

/-- The state that the `n`-th reset leaves (R31, R180): `LEN = 0`, `SBV = 0`, every data cell a free value. -/
def State.afterReset (n : Nat) (pending : List HostMove) (responses : List Rsp) : State where
  buf := Vector.ofFn fun i => Config.resetCell n (.buf i)
  len := 0
  s := Vector.ofFn fun r => Vector.ofFn fun c => Config.resetCell n (.s r c)
  wa := Vector.ofFn fun i => Config.resetCell n (.wa i)
  wb := Vector.ofFn fun i => Config.resetCell n (.wb i)
  sbox := Vector.ofFn fun x => Config.resetCell n (.sbox x)
  sbv := false
  pending := pending
  responses := responses
  resets := n

/-- The machine right after its first reset (R31, R180): the engine waits, and the host has presented nothing yet. -/
def State.reset : State := State.afterReset 0 [] []

end Sys2Proof.Machine
end

