-- ==== Sys2Proof/Machine/Ops.lean ====
section
/-! DEFINITION. The shared operations: answering a command, raising an exception (spec/30_encoding.md R70,
spec/60_exceptions.md R152, R154), and the buffer and matrix accesses of several cells (spec/20_memory.md R41, R51).
An exception saves nothing and goes nowhere, so there is no return from one (R154, R155). -/
namespace Sys2Proof.Machine

/-- The command succeeds: its writes have made `t`, and the response carries `ERR = 0`, the length after the command and
`VAL = v` (R63, R70). -/
def answer (v : Byte) (t : State) : Result :=
  .next { t with responses := t.responses ++ [packRsp .ok t.len v] }

/-- The command raises the exception `e`: nothing is written, and the response carries its code, the length and
`VAL = 0` (R70, R152, R154). -/
def raise (e : Err) (s : State) : Result :=
  .next { s with responses := s.responses ++ [packRsp e s.len 0] }

/-- `BUF[0..3]` as a Word (R45). -/
def bufWord (s : State) : FieldWord := Vector.ofFn fun i => s.buf[i.val]

/-- `BUF[0..15]` as a Block (R43). -/
def bufBlock (s : State) : Block := Vector.ofFn fun i => s.buf[i.val]

/-- The byte sequence in the buffer: `BUF[0], …, BUF[LEN-1]` (R21). -/
def bufBytes (s : State) : List Byte := s.buf.toList.take s.len.val

/-- `BUF[0..3] <- w`, `LEN <- 4`; the other cells keep what they hold (R101). -/
def storeWord (w : FieldWord) (s : State) : State :=
  { s with
    buf := Vector.ofFn fun i => if h : i.val < 4 then w[i.val] else s.buf[i.val]
    len := 4 }

/-- `BUF[0..15] <- b`; the other cells and the length keep what they hold. -/
def writeBlock (b : Block) (s : State) : State :=
  { s with buf := Vector.ofFn fun i => if h : i.val < 16 then b[i.val] else s.buf[i.val] }

/-- `BUF[0..15] <- b`, `LEN <- 16` (R121). -/
def storeBlock (b : Block) (s : State) : State := { writeBlock b s with len := 16 }

/-- The cell in row `r`, column `c` of a matrix (R22). -/
def cell (m : StateMatrix) (r c : Fin 4) : Byte := (m[r.val])[c.val]

/-- The matrix whose cell in row `r`, column `c` is `f r c`. -/
def matrixOf (f : Fin 4 → Fin 4 → Byte) : StateMatrix := Vector.ofFn fun r => Vector.ofFn fun c => f r c

end Sys2Proof.Machine
end

