-- ==== Sys2Proof/Machine/Buffer.lean ====
section
/-! DEFINITION. The buffer commands `CLR`, `PUSH`, `RDB` (spec/40_buffer_io.md). -/
namespace Sys2Proof.Machine

/-- `CLR` (R81): `LEN <- 0`; the cells are not cleared. -/
def execClr (s : State) : Result := answer 0 { s with len := 0 }

/-- `PUSH b` (R82). -/
def execPush (b : Operand) (s : State) : Result :=
  if !isByte b then raise .invalidArgument s
  else if h : s.len.val < 32 then
    answer 0 { s with buf := s.buf.set s.len.val (lowByte b) h, len := ⟨s.len.val + 1, by omega⟩ }
  else raise .invalidLength s

/-- `RDB i` (R83). -/
def execRdb (i : Operand) (s : State) : Result :=
  if h : i.toNat < s.len.val then answer (s.buf[i.toNat]'(by omega)) s
  else raise .invalidArgument s

end Sys2Proof.Machine
end

