-- ==== Sys2Proof/Machine/Codec.lean ====
section
/-! DEFINITION. The State Matrix Codec: `LDST`, `RDST` (spec/43_state_codec.md), by the map `r + 4c` of
spec/20_memory.md R44. -/
namespace Sys2Proof.Machine

/-- `loadState`: block byte `r + 4c` goes to the cell in row `r`, column `c` (R44, R120). -/
def loadState (b : Block) : StateMatrix := matrixOf fun r c => b[r.val + 4 * c.val]

/-- `readState`: block byte `i` is the cell in row `i mod 4`, column `i div 4` (R44, R121). -/
def readState (m : StateMatrix) : Block :=
  Vector.ofFn fun i => cell m ⟨i.val % 4, by omega⟩ ⟨i.val / 4, by omega⟩

/-- `LDST` (R120). -/
def execLdst (s : State) : Result :=
  if s.len.val ≠ 16 then raise .invalidLength s else answer 0 { s with s := loadState (bufBlock s) }

/-- `RDST` (R121). -/
def execRdst (s : State) : Result := answer 0 (storeBlock (readState s.s) s)

end Sys2Proof.Machine
end

