-- ==== Sys2Proof/Machine/Doubling.lean ====
section
/-! DEFINITION. The 128-bit doubling commands `DBL`, `DBLX` (spec/45_doubling.md). -/
namespace Sys2Proof.Machine

/-- Step 1 of R140: whether bit 7 of each byte is set, before any is shifted. -/
def carryVector (b : Block) : Vector Bool 16 := Vector.ofFn fun i => (b[i.val]).getLsbD 7

/-- `dbl(b)` (R140): the bytes shifted left by one bit, each taking the carry of the next, and the carry of byte 0. -/
def dbl (b : Block) : Block × Bool :=
  (Vector.ofFn fun i =>
    if h : i.val + 1 < 16 then (b[i.val] <<< 1) ||| byteOfBool (carryVector b)[i.val + 1] else b[i.val] <<< 1,
   (carryVector b)[0])

/-- The conditional step of R142: when the carry is 1, `0x87` is XORed into the last byte. -/
def xorOnCarry (n : Block) (carry : Bool) : Block :=
  if carry then n.set 15 (n[15] ^^^ Config.dblConst) else n

/-- `DBL` (R141): the constant is not applied. -/
def execDbl (s : State) : Result :=
  if s.len.val ≠ 16 then raise .invalidLength s
  else answer (byteOfBool (dbl (bufBlock s)).2) (writeBlock (dbl (bufBlock s)).1 s)

/-- `DBLX` (R142). -/
def execDblx (s : State) : Result :=
  if s.len.val ≠ 16 then raise .invalidLength s
  else answer (byteOfBool (dbl (bufBlock s)).2)
    (writeBlock (xorOnCarry (dbl (bufBlock s)).1 (dbl (bufBlock s)).2) s)

end Sys2Proof.Machine
end

