-- ==== Sys2Proof/Machine/Galois.lean ====
section
/-! DEFINITION. The pure functions of the Field Arithmetic Engine (spec/41_field_arithmetic.md R90, R92, R94, R96, R98). -/
namespace Sys2Proof.Machine

/-- `degree(x)`: the position of the highest set bit, −1 for zero (R90). -/
def degree (x : Nat) : Int := if x = 0 then -1 else (x.log2 : Int)

/-- `n` iterations of the shift-and-reduce loop of R92, from `acc`, the shifting copy `aa` of `a`, and `bb`. -/
def gmulLoop : Nat → Byte → Byte → BitVec 9 → Byte
  | 0, acc, _, _ => acc
  | n + 1, acc, aa, bb =>
    let acc' := if aa.getLsbD 0 then acc ^^^ bb.setWidth 8 else acc
    let shifted := bb <<< 1
    let bb' := if degree shifted.toNat = Config.fieldDegree then shifted ^^^ Config.fieldModulus else shifted
    gmulLoop n acc' (aa >>> 1) bb'

/-- `gmul(a, b)`: the product in GF(2^8), eight iterations (R92). -/
def gmul (a b : Byte) : Byte := gmulLoop 8 0 a (b.setWidth 9)

/-- The 256 field elements in rising order. -/
def fieldElements : List Byte := (List.range 256).map (BitVec.ofNat 8)

/-- `ginv(a)`, defined by search: the `b` with `gmul(a, b) = 1` (R94). It is partial: there is none for 0. -/
def ginv (a : Byte) : Option Byte := fieldElements.find? fun b => gmul a b == 1

/-- `xorsum(e)`: bitwise XOR-fold, identity element 0 (R96). -/
def xorsum (e : List Byte) : Byte := e.foldl (· ^^^ ·) 0

/-- `wmul(a, b)`: the product of two Words modulo `x^4+1` (R98). -/
def wmul (a b : FieldWord) : FieldWord :=
  #v[xorsum [gmul a[0] b[0], gmul a[3] b[1], gmul a[2] b[2], gmul a[1] b[3]],
     xorsum [gmul a[1] b[0], gmul a[0] b[1], gmul a[3] b[2], gmul a[2] b[3]],
     xorsum [gmul a[2] b[0], gmul a[1] b[1], gmul a[0] b[2], gmul a[3] b[3]],
     xorsum [gmul a[3] b[0], gmul a[2] b[1], gmul a[1] b[2], gmul a[0] b[3]]]

end Sys2Proof.Machine
end

