-- ==== Sys2Proof/Machine/Field.lean ====
section
/-! DEFINITION. The field arithmetic commands `DEG`, `GMUL`, `GINV`, `XSUM`, `LDWA`, `LDWB`, `WMUL`
(spec/41_field_arithmetic.md). -/
namespace Sys2Proof.Machine

/-- `DEG x` (R91): the degree modulo 256, so −1 is `0xFF`. -/
def execDeg (x : WideOperand) (s : State) : Result := answer (BitVec.ofInt 8 (degree x.toNat)) s

/-- `GMUL a, b` (R93). -/
def execGmul (a b : Operand) (s : State) : Result :=
  if !isByte a || !isByte b then raise .invalidArgument s
  else answer (gmul (lowByte a) (lowByte b)) s

/-- `GINV a` (R95): 0 has no inverse, and is an error here. -/
def execGinv (a : Operand) (s : State) : Result :=
  if !isByte a then raise .invalidArgument s
  else match ginv (lowByte a) with
    | some b => answer b s
    | none => raise .invalidArgument s

/-- `XSUM` (R97). -/
def execXsum (s : State) : Result := answer (xorsum (bufBytes s)) s

/-- `LDWA` (R99). -/
def execLdwa (s : State) : Result :=
  if s.len.val ≠ 4 then raise .invalidLength s else answer 0 { s with wa := bufWord s }

/-- `LDWB` (R100). -/
def execLdwb (s : State) : Result :=
  if s.len.val ≠ 4 then raise .invalidLength s else answer 0 { s with wb := bufWord s }

/-- `WMUL` (R101). -/
def execWmul (s : State) : Result := answer 0 (storeWord (wmul s.wa s.wb) s)

end Sys2Proof.Machine
end

