-- ==== Sys2Proof/Machine/Sbox.lean ====
section
/-! DEFINITION. The S-box: its function, its one-time construction, and the commands `SBOXV`, `SBGEN`, `SBRD`
(spec/42_sbox.md). -/
namespace Sys2Proof.Machine

/-- Steps 1 and 2 of R110: the inverse that enters the affine step, with the convention that 0 maps to itself. -/
def sboxInverse (x : Byte) : Byte :=
  match ginv x with
  | some b => b
  | none => 0

/-- Step 3 of R110: output bit `i` of the affine transform of `inv`. -/
def affineBit (inv : Byte) (i : Nat) : Bool :=
  inv.getLsbD i ^^ inv.getLsbD ((i + 4) % 8) ^^ inv.getLsbD ((i + 5) % 8) ^^ inv.getLsbD ((i + 6) % 8) ^^
    inv.getLsbD ((i + 7) % 8) ^^ Config.affineConst.getLsbD i

/-- `sboxvalue(h, l)` (R110). -/
def sboxvalue (h l : Nibble) : Byte := byteOfBits (affineBit (sboxInverse (composeByte h l)))

/-- The finished table: `SBOX[16·h + l] = sboxvalue(h, l)` (R28, R112). -/
def sboxTable : Vector Byte 256 :=
  Vector.ofFn fun x => sboxvalue (BitVec.ofNat 4 (x.val / 16)) (BitVec.ofNat 4 (x.val % 16))

/-- `EnsureSbox()` (R112): the first use builds all 256 cells and sets `SBV`, in one step; later uses do nothing. -/
def ensureSbox (s : State) : State := if s.sbv then s else { s with sbox := sboxTable, sbv := true }

/-- `SBOX[16·h + l]` (R48, R114). -/
def sboxLookup (h l : Nibble) (s : State) : Byte :=
  s.sbox[16 * h.toNat + l.toNat]'(by have := h.isLt; have := l.isLt; omega)

/-- `SBOXV h, l` (R111): computed without the table, which it does not touch. -/
def execSboxv (h l : Operand) (s : State) : Result :=
  if !isNibble h || !isNibble l then raise .invalidArgument s
  else answer (sboxvalue (lowNibble h) (lowNibble l)) s

/-- `SBGEN` (R113). -/
def execSbgen (s : State) : Result := answer 0 (ensureSbox s)

/-- `SBRD h, l` (R114): the check comes before the construction. -/
def execSbrd (h l : Operand) (s : State) : Result :=
  if !isNibble h || !isNibble l then raise .invalidArgument s
  else answer (sboxLookup (lowNibble h) (lowNibble l) (ensureSbox s)) (ensureSbox s)

end Sys2Proof.Machine
end

