-- ==== Sys2Proof/Machine/Round.lean ====
section
/-! DEFINITION. The Round Transform Module: `SUB`, `SHR`, `MIX` (spec/44_round_transforms.md). Every new cell is computed
from the old matrix (spec/70_reset_and_hazards.md R183). -/
namespace Sys2Proof.Machine

/-- Every cell looked up in the table that the state holds (R130). -/
def substituteBytes (t : State) : StateMatrix :=
  matrixOf fun r c => sboxLookup (hiNib (cell t.s r c)) (loNib (cell t.s r c)) t

/-- Row `r` rotated left by `r` (R131). -/
def shiftRows (m : StateMatrix) : StateMatrix :=
  matrixOf fun r c => cell m r ⟨(c.val + r.val) % 4, by omega⟩

/-- The four new cells of a column (R132). -/
def mixColumn (r0 r1 r2 r3 : Byte) : FieldWord :=
  #v[gmul 2 r0 ^^^ gmul 3 r1 ^^^ r2 ^^^ r3,
     r0 ^^^ gmul 2 r1 ^^^ gmul 3 r2 ^^^ r3,
     r0 ^^^ r1 ^^^ gmul 2 r2 ^^^ gmul 3 r3,
     gmul 3 r0 ^^^ r1 ^^^ r2 ^^^ gmul 2 r3]

/-- Every column multiplied by the fixed polynomial (R132). -/
def mixColumns (m : StateMatrix) : StateMatrix :=
  matrixOf fun r c => (mixColumn (cell m 0 c) (cell m 1 c) (cell m 2 c) (cell m 3 c))[r.val]

/-- `SUB` (R130): builds the table first if it is missing. -/
def execSub (s : State) : Result := answer 0 { ensureSbox s with s := substituteBytes (ensureSbox s) }

/-- `SHR` (R131): the S-box is not used. -/
def execShr (s : State) : Result := answer 0 { s with s := shiftRows s.s }

/-- `MIX` (R132): the S-box is not used. -/
def execMix (s : State) : Result := answer 0 { s with s := mixColumns s.s }

end Sys2Proof.Machine
end

