-- ==== Sys2Proof/Machine/Dispatch.lean ====
section
/-! DEFINITION. Step 3 of spec/30_encoding.md R70: the meaning of each command, one arm per constructor of `Instr`. -/
namespace Sys2Proof.Machine

def exec (i : Instr) (s : State) : Host.Outcome State Fault Refusal :=
  match i with
  | .clr => Sys2Proof.Machine.execClr s
  | .push b => Sys2Proof.Machine.execPush b s
  | .rdb k => Sys2Proof.Machine.execRdb k s
  | .deg x => Sys2Proof.Machine.execDeg x s
  | .gmul a b => Sys2Proof.Machine.execGmul a b s
  | .ginv a => Sys2Proof.Machine.execGinv a s
  | .xsum => Sys2Proof.Machine.execXsum s
  | .ldwa => Sys2Proof.Machine.execLdwa s
  | .ldwb => Sys2Proof.Machine.execLdwb s
  | .wmul => Sys2Proof.Machine.execWmul s
  | .sboxv h l => Sys2Proof.Machine.execSboxv h l s
  | .sbgen => Sys2Proof.Machine.execSbgen s
  | .sbrd h l => Sys2Proof.Machine.execSbrd h l s
  | .ldst => Sys2Proof.Machine.execLdst s
  | .rdst => Sys2Proof.Machine.execRdst s
  | .sub => Sys2Proof.Machine.execSub s
  | .shr => Sys2Proof.Machine.execShr s
  | .mix => Sys2Proof.Machine.execMix s
  | .dbl => Sys2Proof.Machine.execDbl s
  | .dblx => Sys2Proof.Machine.execDblx s

end Sys2Proof.Machine
end

