-- ==== Sys2Proof/Machine/Port.lean ====
section
/-! DEFINITION. The command port: taking the host's next move (spec/70_reset_and_hazards.md R188) and the whole of
`Exec(state, CMD)` (spec/30_encoding.md R70). -/
namespace Sys2Proof.Machine

/-- `Exec(state, CMD)` (R70): a word that is no command raises `IllegalCommand` (R66); any other runs its meaning. -/
def runCommand (w : Cmd) (s : State) : Result :=
  match decode w with
  | .ok i => exec i s
  | .error _ => raise .illegalCommand s

/-- The host asserts reset (R180, R188): the state becomes a reset state, with data cells drawn anew; there is no
response, and the host's side of the port is not the engine's to change (log entry 6). -/
def hostReset (s : State) : Result := .next (State.afterReset (s.resets + 1) s.pending s.responses)

/-- The engine takes the host's next move; with none presented it waits (R180). -/
def takeMove (s : State) : Result :=
  match s.pending with
  | [] => .next s
  | .command w :: rest => runCommand w { s with pending := rest }
  | .reset :: rest => hostReset { s with pending := rest }

/-- The host presents the word `w` before everything it was going to do. -/
def presentFirst (w : Cmd) (s : State) : State := { s with pending := .command w :: s.pending }

end Sys2Proof.Machine
end

