-- ==== Sys2Proof/Machine/Step.lean ====
section
/-! DEFINITION. The step: the engine takes one move of the host (spec/00_scope.md R8, spec/30_encoding.md R70). -/
namespace Sys2Proof.Machine

/-- One step. -/
def step (s : State) : Host.Outcome State Fault Refusal := takeMove s

/-- `s` with the table word `w` presented as the host's next command; words are presented whole (R49). -/
def State.withFetchWord (s : State) (nbits w : Nat) : State :=
  presentFirst (BitVec.ofNat 32 (w % 2 ^ nbits)) s

end Sys2Proof.Machine
end

