-- ==== Sys2Proof/WellFormed.lean ====
section
/-! DEFINITION. Which command words are well formed: the opcode map of spec/30_encoding.md R65 as match and mask values,
"the match and mask values a decoder tests (`CMD & mask == match`)". A word that no row accepts is malformed and is
answered with `IllegalCommand` (R66). The decoder of Sys2Proof/Decode.lean is written from the fields instead (R70), so
that the two can be held against each other. A term of `Instr` needs no check of its own: its fields have the widths of
the command word's fields (log entry 12). -/
namespace Sys2Proof

/-- One row of the opcode map: what it is called, and the words it accepts. -/
structure OpcodeRow where
  mnemonic : String
  matchBits : Cmd
  maskBits : Cmd
deriving DecidableEq, Repr

/-- Does the row accept the word? (R65) -/
def OpcodeRow.accepts (r : OpcodeRow) (w : Cmd) : Bool := w &&& r.maskBits == r.matchBits

/-- The row of each command (R65). -/
def Instr.row : Instr → OpcodeRow
  | .clr => ⟨"CLR", 0x01000000#32, 0xFFFFFFFF#32⟩
  | .push _ => ⟨"PUSH", 0x02000000#32, 0xFF000FFF#32⟩
  | .rdb _ => ⟨"RDB", 0x03000000#32, 0xFF000FFF#32⟩
  | .deg _ => ⟨"DEG", 0x10000000#32, 0xFF000000#32⟩
  | .gmul _ _ => ⟨"GMUL", 0x11000000#32, 0xFF000000#32⟩
  | .ginv _ => ⟨"GINV", 0x12000000#32, 0xFF000FFF#32⟩
  | .xsum => ⟨"XSUM", 0x13000000#32, 0xFFFFFFFF#32⟩
  | .ldwa => ⟨"LDWA", 0x14000000#32, 0xFFFFFFFF#32⟩
  | .ldwb => ⟨"LDWB", 0x15000000#32, 0xFFFFFFFF#32⟩
  | .wmul => ⟨"WMUL", 0x16000000#32, 0xFFFFFFFF#32⟩
  | .sboxv _ _ => ⟨"SBOXV", 0x20000000#32, 0xFF000000#32⟩
  | .sbgen => ⟨"SBGEN", 0x21000000#32, 0xFFFFFFFF#32⟩
  | .sbrd _ _ => ⟨"SBRD", 0x22000000#32, 0xFF000000#32⟩
  | .ldst => ⟨"LDST", 0x30000000#32, 0xFFFFFFFF#32⟩
  | .rdst => ⟨"RDST", 0x31000000#32, 0xFFFFFFFF#32⟩
  | .sub => ⟨"SUB", 0x40000000#32, 0xFFFFFFFF#32⟩
  | .shr => ⟨"SHR", 0x41000000#32, 0xFFFFFFFF#32⟩
  | .mix => ⟨"MIX", 0x42000000#32, 0xFFFFFFFF#32⟩
  | .dbl => ⟨"DBL", 0x50000000#32, 0xFFFFFFFF#32⟩
  | .dblx => ⟨"DBLX", 0x51000000#32, 0xFFFFFFFF#32⟩

/-- The opcode map, in the order of R65. -/
def opcodeRows : List OpcodeRow :=
  [Instr.clr, .push 0, .rdb 0, .deg 0, .gmul 0 0, .ginv 0, .xsum, .ldwa, .ldwb, .wmul,
   .sboxv 0 0, .sbgen, .sbrd 0 0, .ldst, .rdst, .sub, .shr, .mix, .dbl, .dblx].map Instr.row

/-- A command word is well formed when some row of the opcode map accepts it (R65, R66). -/
def wellFormed (w : Cmd) : Bool := opcodeRows.any (·.accepts w)

end Sys2Proof
end

