-- ==== Sys2Proof/Safety.lean ====
section
/-! DEFINITION. The terms claims are stated in: what a command leaves unchanged, what its response is, which error the
tables of the spec give it, the invariant of the S-box table, and the independent readings of the field product
and of a Block as a number. -/
namespace Sys2Proof.Machine

/-- The host's next move is to present the word `w`; `rest` are its moves after that. -/
def Presents (s : State) (w : Cmd) (rest : List HostMove) : Prop := s.pending = .command w :: rest

/-- `BUF` and `LEN` are as before. -/
def KeepsBuffer (s t : State) : Prop := t.buf = s.buf ∧ t.len = s.len

/-- `S` is as before. -/
def KeepsMatrix (s t : State) : Prop := t.s = s.s

/-- `WA` and `WB` are as before. -/
def KeepsWords (s t : State) : Prop := t.wa = s.wa ∧ t.wb = s.wb

/-- `SBOX` and `SBV` are as before. -/
def KeepsTable (s t : State) : Prop := t.sbox = s.sbox ∧ t.sbv = s.sbv

/-- The host's moves to come and the count of resets are as before. -/
def KeepsHostSide (s t : State) : Prop := t.pending = s.pending ∧ t.resets = s.resets

/-- Between `s` and `t` exactly one response was given: `ERR = e`, the length of `t`, `VAL = v` (R63). -/
def Answered (s t : State) (e : Err) (v : Byte) : Prop := t.responses = s.responses ++ [packRsp e t.len v]

/-- The state after a command that raised `e` at `s`: nothing written, one response (R152). -/
def raised (e : Err) (s : State) : State :=
  { s with responses := s.responses ++ [packRsp e s.len 0] }

/-- A run in which no command erred: `ERR = 0` in each response (R166). -/
def NoErrors (rs : List Rsp) : Prop := ∀ r ∈ rs, rspErr r = 0

/-- `SBOX[x]`. -/
def entry (s : State) (x : Byte) : Byte := s.sbox[x.toNat]'x.isLt

/-- The invariant of the table: if `SBV = 1` then `SBOX[x] = sboxvalue(hi(x), lo(x))` for every `x` (R28). -/
def TableOk (s : State) : Prop := s.sbv = true → ∀ x : Byte, entry s x = sboxvalue (hiNib x) (loNib x)

/-- What `EnsureSbox()` leaves (R112): the table is built; it is the old one if there was one, else the S-box. -/
def TableEnsured (s t : State) : Prop :=
  t.sbv = true ∧ (s.sbv = true → t.sbox = s.sbox) ∧
    (s.sbv = false → ∀ x : Byte, entry t x = sboxvalue (hiNib x) (loNib x))

/-- The exception a well-formed command raises of its own, by the table of R151; the order is that of R153. -/
def errorOf (i : Instr) (s : State) : Err :=
  match i with
  | .push b => if 255 < b.toNat then .invalidArgument else if s.len.val = 32 then .invalidLength else .ok
  | .rdb k => if s.len.val ≤ k.toNat then .invalidArgument else .ok
  | .gmul a b => if 255 < a.toNat ∨ 255 < b.toNat then .invalidArgument else .ok
  | .ginv a => if 255 < a.toNat ∨ a.toNat = 0 then .invalidArgument else .ok
  | .sboxv h l => if 15 < h.toNat ∨ 15 < l.toNat then .invalidArgument else .ok
  | .sbrd h l => if 15 < h.toNat ∨ 15 < l.toNat then .invalidArgument else .ok
  | .ldwa => if s.len.val ≠ 4 then .invalidLength else .ok
  | .ldwb => if s.len.val ≠ 4 then .invalidLength else .ok
  | .ldst => if s.len.val ≠ 16 then .invalidLength else .ok
  | .dbl => if s.len.val ≠ 16 then .invalidLength else .ok
  | .dblx => if s.len.val ≠ 16 then .invalidLength else .ok
  | .clr => .ok
  | .deg _ => .ok
  | .xsum => .ok
  | .wmul => .ok
  | .sbgen => .ok
  | .rdst => .ok
  | .sub => .ok
  | .shr => .ok
  | .mix => .ok

/-- The commands with a scalar result (R64). -/
def hasResult (i : Instr) : Bool :=
  match i with
  | .rdb _ => true
  | .deg _ => true
  | .gmul _ _ => true
  | .ginv _ => true
  | .xsum => true
  | .sboxv _ _ => true
  | .sbrd _ _ => true
  | .dbl => true
  | .dblx => true
  | .clr => false
  | .push _ => false
  | .ldwa => false
  | .ldwb => false
  | .wmul => false
  | .sbgen => false
  | .ldst => false
  | .rdst => false
  | .sub => false
  | .shr => false
  | .mix => false

/-- The operands of a command as numbers. -/
def operandsOf (i : Instr) : List Nat :=
  match i with
  | .push b => [b.toNat]
  | .rdb k => [k.toNat]
  | .ginv a => [a.toNat]
  | .deg x => [x.toNat]
  | .gmul a b => [a.toNat, b.toNat]
  | .sboxv h l => [h.toNat, l.toNat]
  | .sbrd h l => [h.toNat, l.toNat]
  | .clr => []
  | .xsum => []
  | .ldwa => []
  | .ldwb => []
  | .wmul => []
  | .sbgen => []
  | .ldst => []
  | .rdst => []
  | .sub => []
  | .shr => []
  | .mix => []
  | .dbl => []
  | .dblx => []

/-- Carry-less product of two polynomials over GF(2), the first of degree below 8, not reduced (R92). -/
def clmul (a b : Nat) : Nat :=
  (List.range 8).foldl (fun acc i => if a.testBit i then acc ^^^ (b <<< i) else acc) 0

/-- A Block as a 128-bit number, byte 0 most significant (R47). -/
def blockValue (b : Block) : Nat := b.toList.foldl (fun v x => v * 256 + x.toNat) 0

end Sys2Proof.Machine
end

