-- ==== Sys2Proof/Certificates/Slice0/Obligations.lean ====
section
/-! DEFINITION. The statements for the provers, from the numbered rules of spec/. -/

open Sys2Proof Sys2Proof.Machine

/-! ### Words: decoding and encoding -/

/-- Decoding the word of any command gives the command back, operands at every value the fields admit (R60, R61, R65). -/
def Obligations.DecodeOfEncodeIsTheCommand : Prop := ∀ i : Instr, decode (encode i) = .ok i

/-- A legal word has one spelling: encoding what it decodes to gives the word back (R60, R61, R65). -/
def Obligations.EncodeOfDecodeIsTheWord : Prop := ∀ (w : Cmd) (i : Instr), decode w = .ok i → encode i = w

/-- The decoder, written from the fields, accepts exactly the words that the match and mask values of R65 accept, and
reads from each the command of the one row that accepts it. -/
def Obligations.DecodeAgreesWithTheOpcodeMap : Prop :=
  ∀ w : Cmd,
    ((∃ i, decode w = .ok i) ↔ wellFormed w = true) ∧
    ∀ i, decode w = .ok i →
      ∀ r ∈ opcodeRows, r.accepts w = true ↔ r = i.row

/-- Operands are the unsigned values of their fields: `A = CMD[23:12]`, `B = CMD[11:0]`, `X = CMD[23:0]` (R60, R62). -/
def Obligations.DecodedOperandsAreTheFields : Prop :=
  ∀ (w : Cmd) (i : Instr), decode w = .ok i →
    operandsOf i =
      match i with
      | .push _ => [w.toNat / 2 ^ 12 % 2 ^ 12]
      | .rdb _ => [w.toNat / 2 ^ 12 % 2 ^ 12]
      | .ginv _ => [w.toNat / 2 ^ 12 % 2 ^ 12]
      | .deg _ => [w.toNat % 2 ^ 24]
      | .gmul _ _ => [w.toNat / 2 ^ 12 % 2 ^ 12, w.toNat % 2 ^ 12]
      | .sboxv _ _ => [w.toNat / 2 ^ 12 % 2 ^ 12, w.toNat % 2 ^ 12]
      | .sbrd _ _ => [w.toNat / 2 ^ 12 % 2 ^ 12, w.toNat % 2 ^ 12]
      | _ => []

/-- The worked encodings and the worked responses of R72. -/
def Obligations.WorkedEncodingsAreRead : Prop :=
  decode 0x01000000#32 = .ok .clr ∧ decode 0x02053000#32 = .ok (.push 0x53) ∧
  decode 0x0300F000#32 = .ok (.rdb 15) ∧ decode 0x1000011B#32 = .ok (.deg 0x11B) ∧
  decode 0x11057083#32 = .ok (.gmul 0x57 0x83) ∧ decode 0x12053000#32 = .ok (.ginv 0x53) ∧
  decode 0x20005003#32 = .ok (.sboxv 5 3) ∧ decode 0x2200F00F#32 = .ok (.sbrd 15 15) ∧
  decode 0x30000000#32 = .ok .ldst ∧ decode 0x42000000#32 = .ok .mix ∧ decode 0x51000000#32 = .ok .dblx ∧
  packRsp .ok 16 0x5F = 0x105F#16 ∧ packRsp .invalidLength 3 0 = 0x4300#16 ∧
  packRsp .invalidArgument 3 0 = 0x8300#16 ∧ packRsp .illegalCommand 0 0 = 0xC000#16

/-! ### The step and the whole machine -/

/-- A step at which the host presents a word that spells the command `i` is `exec i` at the state in which that move has
been taken; the step does nothing else. -/
def Obligations.StepRunsTheDecodedCommand : Prop :=
  ∀ (s : State) (w : Cmd) (rest : List HostMove) (i : Instr),
    Presents s w rest → decode w = .ok i → step s = exec i { s with pending := rest }

/-- A word that no row of the opcode map accepts is answered with `IllegalCommand` and changes no state; that covers an
unassigned opcode, a format-N command with a non-zero field, and a format-A command with `B ≠ 0` (R66). -/
def Obligations.IllegalWordChangesNothing : Prop :=
  (∀ w : Cmd,
    w.toNat / 2 ^ 24 ∉ [0x01, 0x02, 0x03, 0x10, 0x11, 0x12, 0x13, 0x14, 0x15, 0x16, 0x20, 0x21, 0x22, 0x30, 0x31,
      0x40, 0x41, 0x42, 0x50, 0x51] → wellFormed w = false) ∧
  (∀ w : Cmd,
    w.toNat / 2 ^ 24 ∈ [0x01, 0x13, 0x14, 0x15, 0x16, 0x21, 0x30, 0x31, 0x40, 0x41, 0x42, 0x50, 0x51] →
      w.toNat % 2 ^ 24 ≠ 0 → wellFormed w = false) ∧
  (∀ w : Cmd, w.toNat / 2 ^ 24 ∈ [0x02, 0x03, 0x12] → w.toNat % 2 ^ 12 ≠ 0 → wellFormed w = false) ∧
  ∀ (s : State) (w : Cmd) (rest : List HostMove),
    Presents s w rest → wellFormed w = false →
      step s = .next (raised .illegalCommand { s with pending := rest })

/-- With no move presented the engine waits: the step changes nothing (the model's form of "the engine waits for the
first command", R180; log entry 3). -/
def Obligations.StepWaitsForTheHost : Prop := ∀ s : State, s.pending = [] → step s = .next s

/-- Reset asserted between two commands leaves `LEN = 0` and `SBV = 0` and gives no response (R180, R188); that the host's
moves and the responses stand as they were is the model's (log entries 2 and 6). -/
def Obligations.HostResetLeavesAResetState : Prop :=
  ∀ (s : State) (rest : List HostMove), s.pending = .reset :: rest →
    ∃ t, step s = .next t ∧ t.len = 0 ∧ t.sbv = false ∧ t.responses = s.responses ∧ t.pending = rest

/-- After reset the buffer is empty and the table is not built (R31). -/
def Obligations.ResetStateIsEmptyAndUnbuilt : Prop := State.reset.len = 0 ∧ State.reset.sbv = false

/-- Every word in every state has exactly one outcome, a next state and a response, and no step stops (R164). -/
def Obligations.EveryWordIsAnswered : Prop :=
  (∀ s : State, ∃ t, step s = .next t) ∧
  ∀ (s : State) (w : Cmd) (rest : List HostMove), Presents s w rest →
    ∃ t r, step s = .next t ∧ t.pending = rest ∧ t.responses = s.responses ++ [r]

/-- A command that is answered with `ERR ≠ 0` has changed no state element, and its `VAL` is 0 (R152). -/
def Obligations.ErrorsChangeNothing : Prop :=
  ∀ (s t : State) (w : Cmd) (rest : List HostMove) (r : Rsp), Presents s w rest →
    step s = .next t → t.responses = s.responses ++ [r] → rspErr r ≠ 0 →
      rspVal r = 0 ∧ t = { s with pending := rest, responses := s.responses ++ [r] }

/-- The causes of every exception are exactly those of R151: a malformed word raises `IllegalCommand`, a command raises
what its row of the table says, and nothing else is raised. -/
def Obligations.ErrorsHaveExactlyTheListedCauses : Prop :=
  ∀ (s : State) (w : Cmd) (rest : List HostMove), Presents s w rest →
    ∃ t v e, step s = .next t ∧ Answered s t e v ∧
      (e = .illegalCommand ↔ wellFormed w = false) ∧ ∀ i, decode w = .ok i → e = errorOf i s

/-- `IllegalCommand` first, then `InvalidArgument`, then `InvalidLength`; exactly one is reported (R153). -/
def Obligations.OneErrorIsReportedByPriority : Prop :=
  (∀ (s : State) (rest : List HostMove), Presents s 0x02100001#32 rest →
    step s = .next (raised .illegalCommand { s with pending := rest })) ∧
  (∀ (s : State) (w : Cmd) (rest : List HostMove), Presents s w rest → wellFormed w = false →
    step s = .next (raised .illegalCommand { s with pending := rest })) ∧
  ∀ (s : State) (b : Operand), 255 < b.toNat → s.len.val = 32 →
    exec (.push b) s = .next (raised .invalidArgument s)

/-- The response word (R63): `ERR` the outcome's code, `LEN` the length after the command, `VAL` 0 for every error and for
every command without a scalar result. -/
def Obligations.ResponseFieldsAreAsLaidOut : Prop :=
  (∀ (e : Err) (n : Fin 33) (v : Byte),
    (packRsp e n v).toNat / 2 ^ 14 =
      (match e with
        | .ok => 0
        | .invalidLength => 1
        | .invalidArgument => 2
        | .illegalCommand => 3) ∧
    (packRsp e n v).toNat / 2 ^ 8 % 2 ^ 6 = n.val ∧ (packRsp e n v).toNat % 2 ^ 8 = v.toNat) ∧
  ∀ (s : State) (w : Cmd) (rest : List HostMove), Presents s w rest →
    ∃ t r, step s = .next t ∧ t.responses = s.responses ++ [r] ∧
      r.toNat / 2 ^ 8 % 2 ^ 6 = t.len.val ∧
      (r.toNat / 2 ^ 14 ≠ 0 → r.toNat % 2 ^ 8 = 0 ∧ t.len = s.len) ∧
      ∀ i, decode w = .ok i → hasResult i = false → r.toNat % 2 ^ 8 = 0

/-- No command reads the host's moves to come, the responses given before, or the count of resets: with any others in
their place it does the same and gives the same response (R25, R26, R54, R154). -/
def Obligations.CommandsDoNotReadTheHostSide : Prop :=
  ∀ (i : Instr) (s : State) (p : List HostMove) (rs : List Rsp) (n : Nat),
    ∃ (t : State) (r : Rsp),
      exec i s = .next { t with responses := s.responses ++ [r] } ∧ KeepsHostSide s t ∧
      exec i { s with pending := p, responses := rs, resets := n } =
        .next { t with pending := p, responses := rs ++ [r], resets := n }

/-- Each state element is changed only by the commands that R20 and R41 list as writing it; `LEN` only by `CLR`, `PUSH`,
`RDST` and `WMUL` (R27). -/
def Obligations.OnlyTheListedCommandsWrite : Prop :=
  ∀ (i : Instr) (s t : State), exec i s = .next t →
    (t.len ≠ s.len → i = .clr ∨ (∃ b, i = .push b) ∨ i = .rdst ∨ i = .wmul) ∧
    (t.buf ≠ s.buf → (∃ b, i = .push b) ∨ i = .rdst ∨ i = .wmul ∨ i = .dbl ∨ i = .dblx) ∧
    (t.s ≠ s.s → i = .ldst ∨ i = .sub ∨ i = .shr ∨ i = .mix) ∧
    (t.wa ≠ s.wa → i = .ldwa) ∧ (t.wb ≠ s.wb → i = .ldwb) ∧
    (¬ KeepsTable s t → i = .sbgen ∨ (∃ h l, i = .sbrd h l) ∨ i = .sub) ∧ KeepsHostSide s t

/-- Cells of `BUF` at and above `LEN` are not observable: two states that differ only there answer alike, and differ only
there afterwards (R21). -/
def Obligations.StaleBufferCellsAreNotObservable : Prop :=
  ∀ (i : Instr) (s : State) (b : Vector Byte 32),
    (∀ (j : Nat) (h : j < 32), j < s.len.val → b[j] = s.buf[j]) →
    ∃ t b', exec i s = .next t ∧ exec i { s with buf := b } = .next { t with buf := b' } ∧
      ∀ (j : Nat) (h : j < 32), j < t.len.val → b'[j] = t.buf[j]

/-- `RDB`, `XSUM`, `DEG`, `GMUL`, `GINV` and `SBOXV` change no state and answer the same when issued twice; `SBRD` answers
the same when issued twice (R52). -/
def Obligations.ReadsAreIdempotent : Prop :=
  (∀ (i : Instr) (s : State),
    ((∃ k, i = .rdb k) ∨ i = .xsum ∨ (∃ x, i = .deg x) ∨ (∃ a b, i = .gmul a b) ∨ (∃ a, i = .ginv a) ∨
      ∃ h l, i = .sboxv h l) →
    ∃ r, exec i s = .next { s with responses := s.responses ++ [r] } ∧
      exec i { s with responses := s.responses ++ [r] } = .next { s with responses := s.responses ++ [r, r] }) ∧
  ∀ (h l : Operand) (s : State),
    ∃ t u r, exec (.sbrd h l) s = .next t ∧ exec (.sbrd h l) t = .next u ∧
      KeepsBuffer s t ∧ KeepsMatrix s t ∧ KeepsWords s t ∧ KeepsHostSide s t ∧
      t.responses = s.responses ++ [r] ∧ u.responses = s.responses ++ [r, r]

/-! ### The buffer -/

/-- `CLR` (R81). -/
def Obligations.ClrEmptiesTheBuffer : Prop :=
  decode 0x01000000#32 = .ok .clr ∧
  ∀ s : State, ∃ t, exec .clr s = .next t ∧ t.len.val = 0 ∧ t.buf = s.buf ∧
    KeepsMatrix s t ∧ KeepsWords s t ∧ KeepsTable s t ∧ KeepsHostSide s t ∧ Answered s t .ok 0

/-- `PUSH b` (R82). -/
def Obligations.PushAppendsOneByte : Prop :=
  (∀ b : Operand, decode (0x02000000#32 ||| b.setWidth 32 <<< 12) = .ok (.push b)) ∧
  ∀ (b : Operand) (s : State),
    (b.toNat ≤ 255 → s.len.val ≤ 31 →
      ∃ t, exec (.push b) s = .next t ∧ t.len.val = s.len.val + 1 ∧
        (∀ (j : Nat) (h : j < 32), (t.buf[j]).toNat = if j = s.len.val then b.toNat else (s.buf[j]).toNat) ∧
        KeepsMatrix s t ∧ KeepsWords s t ∧ KeepsTable s t ∧ KeepsHostSide s t ∧ Answered s t .ok 0) ∧
    (255 < b.toNat → exec (.push b) s = .next (raised .invalidArgument s)) ∧
    (b.toNat ≤ 255 → s.len.val = 32 → exec (.push b) s = .next (raised .invalidLength s))

/-- `RDB i` (R83). -/
def Obligations.RdbReadsOneByte : Prop :=
  (∀ k : Operand, decode (0x03000000#32 ||| k.setWidth 32 <<< 12) = .ok (.rdb k)) ∧
  ∀ (k : Operand) (s : State),
    (∀ h : k.toNat < s.len.val,
      exec (.rdb k) s =
        .next { s with responses := s.responses ++ [packRsp .ok s.len (s.buf[k.toNat]'(by omega))] }) ∧
    (s.len.val ≤ k.toNat → exec (.rdb k) s = .next (raised .invalidArgument s))

/-- `BUF[i]` is the byte given by the `(i+1)`-th `PUSH` after the last `CLR` (R43): from any state, a `CLR` and at most 32
`PUSH` words leave the pushed bytes in the buffer, first byte at index 0, and touch nothing else. -/
def Obligations.PushedBytesStandInOrder : Prop :=
  ∀ (bs : List Byte) (s : State) (rest : List HostMove), bs.length ≤ 32 →
    s.pending = .command (encode .clr) ::
      (bs.map fun b => HostMove.command (encode (.push (b.setWidth 12)))) ++ rest →
    ∃ t, core.run (bs.length + 1) s = .next t ∧ t.len.val = bs.length ∧ t.pending = rest ∧
      (∀ (j : Nat) (h : j < bs.length), t.buf[j]? = some bs[j]) ∧
      KeepsMatrix s t ∧ KeepsWords s t ∧ KeepsTable s t

/-! ### Field arithmetic -/

/-- `degree` (R90) and `DEG x` (R91): the position of the highest set bit, −1 for zero, which `DEG` answers as `0xFF`. -/
def Obligations.DegAnswersTheHighestBit : Prop :=
  degree 0 = -1 ∧
  (∀ x : Nat, 0 < x → ∃ d : Nat, degree x = d ∧ x.testBit d = true ∧ ∀ j, d < j → x.testBit j = false) ∧
  (∀ x : WideOperand, decode (0x10000000#32 ||| x.setWidth 32) = .ok (.deg x)) ∧
  ∀ (x : WideOperand) (s : State),
    ∃ v : Byte, exec (.deg x) s = .next { s with responses := s.responses ++ [packRsp .ok s.len v] } ∧
      (x = 0 → v = 0xFF) ∧
      (x ≠ 0 → v.toNat ≤ 23 ∧ x.getLsbD v.toNat = true ∧ ∀ j, v.toNat < j → x.getLsbD j = false)

/-- `gmul(a, b)` is the product of the two polynomials modulo `0x11B` (R92): it differs from the carry-less product by a
multiple of the modulus, and it has degree below 8 by its type. -/
def Obligations.GmulIsThePolynomialProductReduced : Prop :=
  ∀ a b : Byte, ∃ q : Nat, q < 128 ∧ clmul a.toNat b.toNat = clmul q 0x11B ^^^ (gmul a b).toNat

/-- `GMUL a, b` (R93), with the corner cases R93 names. -/
def Obligations.GmulMultipliesFieldElements : Prop :=
  (∀ a b : Operand, decode (0x11000000#32 ||| a.setWidth 32 <<< 12 ||| b.setWidth 32) = .ok (.gmul a b)) ∧
  (∀ (a b : Operand) (s : State),
    (a.toNat ≤ 255 → b.toNat ≤ 255 →
      exec (.gmul a b) s =
        .next { s with responses := s.responses ++ [packRsp .ok s.len (gmul (a.setWidth 8) (b.setWidth 8))] }) ∧
    (255 < a.toNat ∨ 255 < b.toNat → exec (.gmul a b) s = .next (raised .invalidArgument s))) ∧
  (∀ a : Byte, gmul a 0 = 0 ∧ gmul 0 a = 0 ∧ gmul a 1 = a ∧ gmul 1 a = a) ∧
  (∀ a b : Byte, gmul a b = gmul b a) ∧
  gmul 0x02 0x80 = 0x1B ∧ gmul 0xFF 0xFF = 0x13 ∧ gmul 0x57 0x83 = 0xC1 ∧ gmul 0x57 0x13 = 0xFE

/-- The laws that the source states as testable properties (R103). -/
def Obligations.FieldLawsHold : Prop :=
  (∀ a : Byte, a ≠ 0 → ∃ b, ginv a = some b ∧ gmul a b = 1) ∧
  (∀ a b : Byte, gmul a b = gmul b a) ∧ ∀ a : Byte, gmul a 0 = 0

/-- `ginv(a)` is the one `b` with `gmul(a, b) = 1`, and `ginv(0)` does not exist (R94). -/
def Obligations.GinvIsTheUniqueInverse : Prop :=
  (∀ a : Byte, a ≠ 0 → ∃ b, ginv a = some b ∧ b ≠ 0 ∧ ∀ c, gmul a c = 1 ↔ c = b) ∧ ginv 0 = none

/-- `GINV a` (R95): the inverse for 1 to 255, `InvalidArgument` for 0 and above 255; inverting twice gives `a` back. -/
def Obligations.GinvAnswersTheInverse : Prop :=
  (∀ a : Operand, decode (0x12000000#32 ||| a.setWidth 32 <<< 12) = .ok (.ginv a)) ∧
  (∀ (a : Operand) (s : State),
    (1 ≤ a.toNat → a.toNat ≤ 255 →
      ∃ v : Byte, exec (.ginv a) s = .next { s with responses := s.responses ++ [packRsp .ok s.len v] } ∧
        gmul (a.setWidth 8) v = 1 ∧ ginv v = some (a.setWidth 8)) ∧
    (a.toNat = 0 ∨ 255 < a.toNat → exec (.ginv a) s = .next (raised .invalidArgument s))) ∧
  ginv 0x01 = some 0x01 ∧ ginv 0x02 = some 0x8D ∧ ginv 0x53 = some 0xCA

/-- `xorsum` is the XOR-fold with identity 0, and the order of the sequence does not change it (R96). -/
def Obligations.XorsumIsAnUnorderedFold : Prop :=
  xorsum [] = 0 ∧ (∀ (e : Byte) (es : List Byte), xorsum (e :: es) = e ^^^ xorsum es) ∧
  (∀ es fs : List Byte, es.Perm fs → xorsum es = xorsum fs) ∧ ∀ e : Byte, xorsum [e, e] = 0

/-- `XSUM` (R97): each bit of `VAL` is the parity of that bit over `BUF[0..LEN-1]`; an empty buffer gives 0, one byte
itself. -/
def Obligations.XsumFoldsTheBuffer : Prop :=
  decode 0x13000000#32 = .ok .xsum ∧
  ∀ s : State, ∃ v : Byte,
    exec .xsum s = .next { s with responses := s.responses ++ [packRsp .ok s.len v] } ∧
    v = xorsum (List.ofFn fun j : Fin s.len.val => s.buf[j.val]'(by omega)) ∧
    (∀ k, k < 8 → (v.getLsbD k = true ↔
      ((List.finRange 32).countP fun j => decide (j.val < s.len.val) && (s.buf[j.val]).getLsbD k) % 2 = 1)) ∧
    (s.len.val = 0 → v = 0) ∧ (s.len.val = 1 → v = s.buf[0])

/-- `wmul` (R98): coefficient `k` sums `gmul(a[i], b[j])` over all `i + j ≡ k mod 4`; it commutes, `1` is its identity, and
multiplying by `x` rotates the coefficients up by one place. -/
def Obligations.WmulIsTheCyclicConvolution : Prop :=
  (∀ (a b : FieldWord) (k : Fin 4),
    (wmul a b)[k.val] = xorsum ((List.finRange 4).map fun i => gmul a[i.val] b[(k - i).val])) ∧
  (∀ a b : FieldWord, wmul a b = wmul b a) ∧
  (∀ b : FieldWord, wmul #v[1, 0, 0, 0] b = b) ∧
  ∀ b : FieldWord, wmul #v[0, 1, 0, 0] b = #v[b[3], b[0], b[1], b[2]]

/-- `LDWA` (R99) and `LDWB` (R100): each loads its own register from `BUF[0..3]` when `LEN = 4`. -/
def Obligations.LoadWordCommandsCopyTheBuffer : Prop :=
  decode 0x14000000#32 = .ok .ldwa ∧ decode 0x15000000#32 = .ok .ldwb ∧
  ∀ s : State,
    (s.len.val = 4 →
      (∃ t, exec .ldwa s = .next t ∧ (∀ (j : Nat) (h : j < 4), t.wa[j] = s.buf[j]) ∧ t.wb = s.wb ∧
        KeepsBuffer s t ∧ KeepsMatrix s t ∧ KeepsTable s t ∧ KeepsHostSide s t ∧ Answered s t .ok 0) ∧
      ∃ t, exec .ldwb s = .next t ∧ (∀ (j : Nat) (h : j < 4), t.wb[j] = s.buf[j]) ∧ t.wa = s.wa ∧
        KeepsBuffer s t ∧ KeepsMatrix s t ∧ KeepsTable s t ∧ KeepsHostSide s t ∧ Answered s t .ok 0) ∧
    (s.len.val ≠ 4 →
      exec .ldwa s = .next (raised .invalidLength s) ∧ exec .ldwb s = .next (raised .invalidLength s))

/-- `WMUL` (R101): the product of the two Word registers replaces the buffer, whatever its length was. -/
def Obligations.WmulReplacesTheBuffer : Prop :=
  decode 0x16000000#32 = .ok .wmul ∧
  ∀ s : State, ∃ t, exec .wmul s = .next t ∧ t.len.val = 4 ∧
    (∀ (j : Nat) (h : j < 32), t.buf[j] = if g : j < 4 then (wmul s.wa s.wb)[j] else s.buf[j]) ∧
    KeepsMatrix s t ∧ KeepsWords s t ∧ KeepsTable s t ∧ KeepsHostSide s t ∧ Answered s t .ok 0

/-! ### The S-box -/

/-- `sboxvalue(h, l)` (R110): the affine transform, bit by bit, of the inverse of `16·h + l`, where 0 stands for its own
inverse; the two anchors. -/
def Obligations.SboxvalueIsTheAffineInverse : Prop :=
  (∀ h l : Nibble, ∃ inv : Byte,
    (16 * h.toNat + l.toNat = 0 → inv = 0) ∧
    (16 * h.toNat + l.toNat ≠ 0 → gmul (BitVec.ofNat 8 (16 * h.toNat + l.toNat)) inv = 1) ∧
    ∀ k, k < 8 → (sboxvalue h l).getLsbD k =
      (inv.getLsbD k ^^ inv.getLsbD ((k + 4) % 8) ^^ inv.getLsbD ((k + 5) % 8) ^^ inv.getLsbD ((k + 6) % 8) ^^
        inv.getLsbD ((k + 7) % 8) ^^ (0x63#8).getLsbD k)) ∧
  sboxvalue 0 0 = 0x63 ∧ sboxvalue 0 1 = 0x7C

/-- `sboxvalue` is a bijection on 0..255 (R110, derived there from the table of 95_test_vectors.md). -/
def Obligations.SboxvalueIsABijection : Prop :=
  Function.Bijective fun x : Byte => sboxvalue (hiNib x) (loNib x)

/-- `SBOXV h, l` (R111): the S-box function's value, no state read or written. -/
def Obligations.SboxvAnswersTheFunction : Prop :=
  (∀ h l : Operand, decode (0x20000000#32 ||| h.setWidth 32 <<< 12 ||| l.setWidth 32) = .ok (.sboxv h l)) ∧
  ∀ (h l : Operand) (s : State),
    (h.toNat ≤ 15 → l.toNat ≤ 15 →
      exec (.sboxv h l) s =
        .next { s with responses := s.responses ++ [packRsp .ok s.len (sboxvalue (h.setWidth 4) (l.setWidth 4))] }) ∧
    (15 < h.toNat ∨ 15 < l.toNat → exec (.sboxv h l) s = .next (raised .invalidArgument s))

/-- `SBGEN` (R113): the table is built, and a second `SBGEN` changes nothing. -/
def Obligations.SbgenBuildsTheTableOnce : Prop :=
  decode 0x21000000#32 = .ok .sbgen ∧
  ∀ s : State, ∃ t, exec .sbgen s = .next t ∧ TableEnsured s t ∧
    KeepsBuffer s t ∧ KeepsMatrix s t ∧ KeepsWords s t ∧ KeepsHostSide s t ∧ Answered s t .ok 0 ∧
    exec .sbgen t = .next { t with responses := t.responses ++ [packRsp .ok t.len 0] }

/-- `SBRD h, l` (R114): `SBOX[16·h + l]` of the table, built first if it is missing; an erring `SBRD` builds nothing. -/
def Obligations.SbrdReadsTheTable : Prop :=
  (∀ h l : Operand, decode (0x22000000#32 ||| h.setWidth 32 <<< 12 ||| l.setWidth 32) = .ok (.sbrd h l)) ∧
  ∀ (h l : Operand) (s : State),
    (h.toNat ≤ 15 → l.toNat ≤ 15 →
      ∃ t, exec (.sbrd h l) s = .next t ∧ TableEnsured s t ∧
        KeepsBuffer s t ∧ KeepsMatrix s t ∧ KeepsWords s t ∧ KeepsHostSide s t ∧
        Answered s t .ok (entry t (BitVec.ofNat 8 (16 * h.toNat + l.toNat)))) ∧
    (15 < h.toNat ∨ 15 < l.toNat → exec (.sbrd h l) s = .next (raised .invalidArgument s))

/-- `SBRD` and `SBOXV` answer the same in every state whose table is sound, which every reachable one is (R115). -/
def Obligations.SbrdAnswersLikeSboxv : Prop :=
  ∀ (h l : Operand) (s : State), TableOk s →
    ∃ t u r, exec (.sbrd h l) s = .next t ∧ exec (.sboxv h l) s = .next u ∧
      t.responses = s.responses ++ [r] ∧ u.responses = s.responses ++ [r]

/-- The invariant of the table (R28) holds after every step from a state in which it holds. -/
def Obligations.TableInvariantIsKept : Prop := ∀ s t : State, TableOk s → step s = .next t → TableOk t

/-- The invariant of the table (R28) holds after reset. -/
def Obligations.TableInvariantHoldsAtReset : Prop := TableOk State.reset

/-- `SBV` goes from 0 to 1 once and never returns to 0 except by reset; once it is 1 nothing writes `SBOX` (R28). -/
def Obligations.TableIsWrittenOnce : Prop :=
  ∀ (s t : State), s.sbv = true → step s = .next t →
    (t.sbv = true ∧ t.sbox = s.sbox) ∨ ∃ rest, s.pending = .reset :: rest

/-- `SBV` and `SBOX` are hidden (R29): two sound states that differ only in them give the same responses over any number
of steps, whatever the host does. R29 backs this while no reset stands among the host's moves. Where one does, the
responses after it agree by the model's choice (log entries 1 and 2): in both runs that reset draws the same
`Config.resetCell` cells, whereas the spec lets two resets leave different ones. -/
def Obligations.TableIsHidden : Prop :=
  ∀ (n : Nat) (s : State) (box : Vector Byte 256) (v : Bool),
    TableOk s → TableOk { s with sbox := box, sbv := v } →
    ∃ t u, core.run n s = .next t ∧ core.run n { s with sbox := box, sbv := v } = .next u ∧
      u.responses = t.responses

/-! ### The State Matrix -/

/-- `LDST` (R120): block byte `r + 4c` goes to row `r`, column `c`. -/
def Obligations.LdstLoadsByColumns : Prop :=
  decode 0x30000000#32 = .ok .ldst ∧
  ∀ s : State,
    (s.len.val = 16 →
      ∃ t, exec .ldst s = .next t ∧ (∀ r c : Fin 4, cell t.s r c = s.buf[r.val + 4 * c.val]) ∧
        KeepsBuffer s t ∧ KeepsWords s t ∧ KeepsTable s t ∧ KeepsHostSide s t ∧ Answered s t .ok 0) ∧
    (s.len.val ≠ 16 → exec .ldst s = .next (raised .invalidLength s))

/-- `RDST` (R121): the cells go back to the block bytes `r + 4c`, whatever the buffer held. -/
def Obligations.RdstReadsByColumns : Prop :=
  decode 0x31000000#32 = .ok .rdst ∧
  ∀ s : State, ∃ t, exec .rdst s = .next t ∧ t.len.val = 16 ∧
    (∀ r c : Fin 4, t.buf[r.val + 4 * c.val] = cell s.s r c) ∧
    (∀ (j : Nat) (h : j < 32), 16 ≤ j → t.buf[j] = s.buf[j]) ∧
    KeepsMatrix s t ∧ KeepsWords s t ∧ KeepsTable s t ∧ KeepsHostSide s t ∧ Answered s t .ok 0

/-- The codec round trip (R122): with `LEN = 16`, `LDST` then `RDST` leaves the Block and the length as they were; from any
state, `RDST` then `LDST` leaves `S` as it was. -/
def Obligations.CodecRoundTrips : Prop :=
  (∀ s : State, s.len.val = 16 →
    ∃ t u, exec .ldst s = .next t ∧ exec .rdst t = .next u ∧ u.buf = s.buf ∧ u.len = s.len) ∧
  ∀ s : State, ∃ t u, exec .rdst s = .next t ∧ exec .ldst t = .next u ∧ u.s = s.s

/-- `SUB` (R130): every cell `x` becomes `SBOX[x]` of the table, built first if it is missing. -/
def Obligations.SubSubstitutesEveryCell : Prop :=
  decode 0x40000000#32 = .ok .sub ∧
  ∀ s : State, ∃ t, exec .sub s = .next t ∧ TableEnsured s t ∧
    (∀ r c : Fin 4, cell t.s r c = entry t (cell s.s r c)) ∧
    KeepsBuffer s t ∧ KeepsWords s t ∧ KeepsHostSide s t ∧ Answered s t .ok 0

/-- In a state whose table is sound, `SUB` applies `sboxvalue(hi, lo)` to each cell (R115, R130). -/
def Obligations.SubAppliesTheSboxFunction : Prop :=
  ∀ s : State, TableOk s →
    ∃ t, exec .sub s = .next t ∧
      ∀ r c : Fin 4, cell t.s r c = sboxvalue (hiNib (cell s.s r c)) (loNib (cell s.s r c))

/-- `SHR` (R131): row `r` rotates left by `r`, toward column 0 (the sum `c + r` is modulo 4 by its type); four times in a
row restores `S`. -/
def Obligations.ShrRotatesRowsLeft : Prop :=
  decode 0x41000000#32 = .ok .shr ∧
  (∀ s : State, ∃ t, exec .shr s = .next t ∧ (∀ r c : Fin 4, cell t.s r c = cell s.s r (c + r)) ∧
    KeepsBuffer s t ∧ KeepsWords s t ∧ KeepsTable s t ∧ KeepsHostSide s t ∧ Answered s t .ok 0) ∧
  ∀ s : State, ∃ t u v w, exec .shr s = .next t ∧ exec .shr t = .next u ∧ exec .shr u = .next v ∧
    exec .shr v = .next w ∧ w.s = s.s

/-- `MIX` (R132): the four row formulas for every column; each column is the product of the fixed Word and the column; a
column of four equal bytes is unchanged. -/
def Obligations.MixMultipliesEveryColumn : Prop :=
  decode 0x42000000#32 = .ok .mix ∧
  ∀ s : State, ∃ t, exec .mix s = .next t ∧
    (∀ c : Fin 4,
      cell t.s 0 c = gmul 2 (cell s.s 0 c) ^^^ gmul 3 (cell s.s 1 c) ^^^ cell s.s 2 c ^^^ cell s.s 3 c ∧
      cell t.s 1 c = cell s.s 0 c ^^^ gmul 2 (cell s.s 1 c) ^^^ gmul 3 (cell s.s 2 c) ^^^ cell s.s 3 c ∧
      cell t.s 2 c = cell s.s 0 c ^^^ cell s.s 1 c ^^^ gmul 2 (cell s.s 2 c) ^^^ gmul 3 (cell s.s 3 c) ∧
      cell t.s 3 c = gmul 3 (cell s.s 0 c) ^^^ cell s.s 1 c ^^^ cell s.s 2 c ^^^ gmul 2 (cell s.s 3 c)) ∧
    (∀ c : Fin 4,
      #v[cell t.s 0 c, cell t.s 1 c, cell t.s 2 c, cell t.s 3 c] =
        wmul #v[0x02, 0x01, 0x01, 0x03] #v[cell s.s 0 c, cell s.s 1 c, cell s.s 2 c, cell s.s 3 c]) ∧
    (∀ c : Fin 4, (∀ r : Fin 4, cell s.s r c = cell s.s 0 c) → ∀ r : Fin 4, cell t.s r c = cell s.s r c) ∧
    KeepsBuffer s t ∧ KeepsWords s t ∧ KeepsTable s t ∧ KeepsHostSide s t ∧ Answered s t .ok 0

/-- `SUB`, `SHR` and `MIX` read and write `S` only, `SUB` the table as well (R133): what stands in the buffer and in the
Word registers, and for `SHR` and `MIX` in the table too, neither changes nor matters. -/
def Obligations.RoundTransformsActOnTheMatrixOnly : Prop :=
  ∀ (i : Instr) (s : State), i = .sub ∨ i = .shr ∨ i = .mix →
    ∃ t, exec i s = .next t ∧ KeepsBuffer s t ∧ KeepsWords s t ∧ (i ≠ .sub → KeepsTable s t) ∧
      ∀ (b : Vector Byte 32) (n : Fin 33) (x y : FieldWord) (box : Vector Byte 256) (v : Bool),
        (i = .sub → box = s.sbox ∧ v = s.sbv) →
        ∃ u, exec i { s with buf := b, len := n, wa := x, wb := y, sbox := box, sbv := v } = .next u ∧
          u.s = t.s ∧ u.buf = b ∧ u.len = n ∧ u.wa = x ∧ u.wb = y ∧
          (i = .sub → KeepsTable t u) ∧ (i ≠ .sub → u.sbox = box ∧ u.sbv = v)

/-! ### Doubling -/

/-- `dbl` as a number (R47, R140): `n = 2·V mod 2^128`, and the carry is bit 127 of `V`. -/
def Obligations.DblDoublesTheNumber : Prop :=
  ∀ b : Block,
    blockValue (dbl b).1 = 2 * blockValue b % 2 ^ 128 ∧
    ((dbl b).2 = true ↔ 2 ^ 127 ≤ blockValue b) ∧ blockValue b < 2 ^ 128

/-- `DBL` (R141): each byte takes the top bit of the next one, the last byte takes 0, the top bit of byte 0 is answered,
and the constant is not applied. -/
def Obligations.DblShiftsTheBlock : Prop :=
  decode 0x50000000#32 = .ok .dbl ∧
  ∀ s : State,
    (s.len.val = 16 →
      ∃ t, exec .dbl s = .next t ∧
        (∀ (j : Nat) (h : j < 15), t.buf[j] = s.buf[j] <<< 1 ||| s.buf[j + 1] >>> 7) ∧
        t.buf[15] = s.buf[15] <<< 1 ∧ (∀ (j : Nat) (h : j < 32), 16 ≤ j → t.buf[j] = s.buf[j]) ∧
        t.len = s.len ∧ KeepsMatrix s t ∧ KeepsWords s t ∧ KeepsTable s t ∧ KeepsHostSide s t ∧
        Answered s t .ok (s.buf[0] >>> 7)) ∧
    (s.len.val ≠ 16 → exec .dbl s = .next (raised .invalidLength s))

/-- `DBLX` (R142): as `DBL`, and `0x87` is XORed into the last byte when a 1 was shifted out. -/
def Obligations.DblxDoublesWithTheConstant : Prop :=
  decode 0x51000000#32 = .ok .dblx ∧
  ∀ s : State,
    (s.len.val = 16 →
      ∃ t, exec .dblx s = .next t ∧
        (∀ (j : Nat) (h : j < 15), t.buf[j] = s.buf[j] <<< 1 ||| s.buf[j + 1] >>> 7) ∧
        (s.buf[0].getLsbD 7 = false → t.buf[15] = s.buf[15] <<< 1) ∧
        (s.buf[0].getLsbD 7 = true → t.buf[15] = s.buf[15] <<< 1 ^^^ 0x87 ∧ t.buf[15].getLsbD 0 = true) ∧
        (∀ (j : Nat) (h : j < 32), 16 ≤ j → t.buf[j] = s.buf[j]) ∧
        t.len = s.len ∧ KeepsMatrix s t ∧ KeepsWords s t ∧ KeepsTable s t ∧ KeepsHostSide s t ∧
        Answered s t .ok (s.buf[0] >>> 7)) ∧
    (s.len.val ≠ 16 → exec .dblx s = .next (raised .invalidLength s))
end

