-- ==== Sys2Proof/Laws/Operands.lean ====
section
/-! SUPPORT. The small lemmas of operand checks, nibbles and bits of a byte, and of the response word. -/
namespace Sys2Proof.Machine

theorem isByte_iff (a : Operand) : isByte a = true ↔ a.toNat ≤ 255 := by simp [isByte]
theorem isByte_eq_false_iff (a : Operand) : isByte a = false ↔ 255 < a.toNat := by simp [isByte]
theorem isNibble_iff (a : Operand) : isNibble a = true ↔ a.toNat ≤ 15 := by simp [isNibble]
theorem isNibble_eq_false_iff (a : Operand) : isNibble a = false ↔ 15 < a.toNat := by simp [isNibble]

/-- `A[7:0]` is the truncation of `A` to 8 bits. -/
theorem lowByte_eq_setWidth (a : Operand) : lowByte a = a.setWidth 8 := by
  apply BitVec.eq_of_toNat_eq; simp [lowByte, BitVec.extractLsb'_toNat]

/-- `A[3:0]` is the truncation of `A` to 4 bits. -/
theorem lowNibble_eq_setWidth (a : Operand) : lowNibble a = a.setWidth 4 := by
  apply BitVec.eq_of_toNat_eq; simp [lowNibble, BitVec.extractLsb'_toNat]

theorem lowByte_toNat (a : Operand) (h : a.toNat ≤ 255) : (lowByte a).toNat = a.toNat := by
  simp [lowByte_eq_setWidth]; omega

theorem lowNibble_toNat (a : Operand) (h : a.toNat ≤ 15) : (lowNibble a).toNat = a.toNat := by
  simp [lowNibble_eq_setWidth]; omega

theorem hiNib_toNat (v : Byte) : (hiNib v).toNat = v.toNat / 16 := by
  have := v.isLt
  simp [hiNib, BitVec.extractLsb'_toNat, Nat.shiftRight_eq_div_pow]; omega

theorem loNib_toNat (v : Byte) : (loNib v).toNat = v.toNat % 16 := by
  simp [loNib, BitVec.extractLsb'_toNat]

/-- The byte of two nibbles is `16·h + l` (R48). -/
theorem composeByte_toNat (h l : Nibble) : (composeByte h l).toNat = 16 * h.toNat + l.toNat := by
  have := l.isLt
  simp only [composeByte, BitVec.toNat_append]
  rw [← Nat.shiftLeft_add_eq_or_of_lt l.isLt, Nat.shiftLeft_eq]; omega

@[simp] theorem composeByte_hiNib_loNib (v : Byte) : composeByte (hiNib v) (loNib v) = v := by
  apply BitVec.eq_of_toNat_eq
  rw [composeByte_toNat, hiNib_toNat, loNib_toNat]; omega

@[simp] theorem hiNib_composeByte (h l : Nibble) : hiNib (composeByte h l) = h := by
  apply BitVec.eq_of_toNat_eq
  have := l.isLt
  rw [hiNib_toNat, composeByte_toNat]; omega

@[simp] theorem loNib_composeByte (h l : Nibble) : loNib (composeByte h l) = l := by
  apply BitVec.eq_of_toNat_eq
  have := l.isLt
  rw [loNib_toNat, composeByte_toNat]; omega

/-- Bit `k` of the byte made of bits is the bit given for it. -/
theorem byteOfBits_getLsbD (f : Nat → Bool) (k : Nat) (h : k < 8) : (byteOfBits f).getLsbD k = f k := by
  rcases k with _ | _ | _ | _ | _ | _ | _ | _ | k
  all_goals first | omega | (simp only [byteOfBits, BitVec.getLsbD_append, BitVec.getLsbD_ofBool]; simp)

/-- The carry as a byte is the byte's top bit, shifted down. -/
theorem byteOfBool_getLsbD_seven (x : Byte) : byteOfBool (x.getLsbD 7) = x >>> 7 := by
  revert x; decide

/-! ### The fields of a response word (R63) -/

@[simp] theorem rspVal_packRsp (e : Err) (n : Fin 33) (v : Byte) : rspVal (packRsp e n v) = v := by
  apply BitVec.eq_of_getLsbD_eq
  intro k hk
  simp only [rspVal, packRsp, BitVec.getLsbD_extractLsb', BitVec.getLsbD_append]
  simp [hk]

@[simp] theorem rspLen_packRsp (e : Err) (n : Fin 33) (v : Byte) :
    rspLen (packRsp e n v) = BitVec.ofNat 6 n.val := by
  apply BitVec.eq_of_getLsbD_eq
  intro k hk
  simp only [rspLen, packRsp, BitVec.getLsbD_extractLsb', BitVec.getLsbD_append]
  simp [hk]

@[simp] theorem rspErr_packRsp (e : Err) (n : Fin 33) (v : Byte) : rspErr (packRsp e n v) = e.code := by
  apply BitVec.eq_of_getLsbD_eq
  intro k hk
  simp only [rspErr, packRsp, BitVec.getLsbD_extractLsb', BitVec.getLsbD_append]
  have h1 : ¬ 14 + k < 8 := by omega
  have h2 : ¬ 14 + k - 8 < 6 := by omega
  have h3 : 14 + k - 8 - 6 = k := by omega
  simp [h1, h2, h3, hk]

/-- Two responses of one length agree exactly when outcome and value agree. -/
theorem packRsp_inj (e f : Err) (n : Fin 33) (v w : Byte) :
    packRsp e n v = packRsp f n w ↔ e = f ∧ v = w := by
  constructor
  · intro h
    have h1 := congrArg rspErr h
    have h2 := congrArg rspVal h
    simp only [rspErr_packRsp, rspVal_packRsp] at h1 h2
    refine ⟨?_, h2⟩
    cases e <;> cases f <;> simp_all [Err.code]
  · rintro ⟨rfl, rfl⟩; rfl

end Sys2Proof.Machine
end

