-- ==== Sys2Proof/Laws/State.lean ====
section
/-! SUPPORT. The small lemmas of the named updates of State: what each leaves in each field. -/
namespace Sys2Proof.Machine

section AfterReset
variable (n : Nat) (p : List HostMove) (rs : List Rsp)

@[simp] theorem afterReset_len : (State.afterReset n p rs).len = 0 := rfl
@[simp] theorem afterReset_sbv : (State.afterReset n p rs).sbv = false := rfl
@[simp] theorem afterReset_pending : (State.afterReset n p rs).pending = p := rfl
@[simp] theorem afterReset_responses : (State.afterReset n p rs).responses = rs := rfl
@[simp] theorem afterReset_resets : (State.afterReset n p rs).resets = n := rfl

end AfterReset

section StoreWord
variable (w : FieldWord) (s : State)

@[simp] theorem storeWord_len : (storeWord w s).len = 4 := by unfold storeWord; rfl
@[simp] theorem storeWord_s : (storeWord w s).s = s.s := by unfold storeWord; rfl
@[simp] theorem storeWord_wa : (storeWord w s).wa = s.wa := by unfold storeWord; rfl
@[simp] theorem storeWord_wb : (storeWord w s).wb = s.wb := by unfold storeWord; rfl
@[simp] theorem storeWord_sbox : (storeWord w s).sbox = s.sbox := by unfold storeWord; rfl
@[simp] theorem storeWord_sbv : (storeWord w s).sbv = s.sbv := by unfold storeWord; rfl
@[simp] theorem storeWord_pending : (storeWord w s).pending = s.pending := by unfold storeWord; rfl
@[simp] theorem storeWord_responses : (storeWord w s).responses = s.responses := by unfold storeWord; rfl
@[simp] theorem storeWord_resets : (storeWord w s).resets = s.resets := by unfold storeWord; rfl
@[simp] theorem storeWord_buf (j : Nat) (h : j < 32) :
    (storeWord w s).buf[j] = if g : j < 4 then w[j] else s.buf[j] := by
  simp [storeWord]

end StoreWord

section WriteBlock
variable (b : Block) (s : State)

@[simp] theorem writeBlock_len : (writeBlock b s).len = s.len := by unfold writeBlock; rfl
@[simp] theorem writeBlock_s : (writeBlock b s).s = s.s := by unfold writeBlock; rfl
@[simp] theorem writeBlock_wa : (writeBlock b s).wa = s.wa := by unfold writeBlock; rfl
@[simp] theorem writeBlock_wb : (writeBlock b s).wb = s.wb := by unfold writeBlock; rfl
@[simp] theorem writeBlock_sbox : (writeBlock b s).sbox = s.sbox := by unfold writeBlock; rfl
@[simp] theorem writeBlock_sbv : (writeBlock b s).sbv = s.sbv := by unfold writeBlock; rfl
@[simp] theorem writeBlock_pending : (writeBlock b s).pending = s.pending := by unfold writeBlock; rfl
@[simp] theorem writeBlock_responses : (writeBlock b s).responses = s.responses := by unfold writeBlock; rfl
@[simp] theorem writeBlock_resets : (writeBlock b s).resets = s.resets := by unfold writeBlock; rfl
@[simp] theorem writeBlock_buf (j : Nat) (h : j < 32) :
    (writeBlock b s).buf[j] = if g : j < 16 then b[j] else s.buf[j] := by
  simp [writeBlock]

@[simp] theorem storeBlock_len : (storeBlock b s).len = 16 := by unfold storeBlock; rfl
@[simp] theorem storeBlock_s : (storeBlock b s).s = s.s := by simp only [storeBlock, writeBlock]
@[simp] theorem storeBlock_wa : (storeBlock b s).wa = s.wa := by simp only [storeBlock, writeBlock]
@[simp] theorem storeBlock_wb : (storeBlock b s).wb = s.wb := by simp only [storeBlock, writeBlock]
@[simp] theorem storeBlock_sbox : (storeBlock b s).sbox = s.sbox := by simp only [storeBlock, writeBlock]
@[simp] theorem storeBlock_sbv : (storeBlock b s).sbv = s.sbv := by simp only [storeBlock, writeBlock]
@[simp] theorem storeBlock_pending : (storeBlock b s).pending = s.pending := by simp only [storeBlock, writeBlock]
@[simp] theorem storeBlock_responses : (storeBlock b s).responses = s.responses := by simp only [storeBlock, writeBlock]
@[simp] theorem storeBlock_resets : (storeBlock b s).resets = s.resets := by simp only [storeBlock, writeBlock]
@[simp] theorem storeBlock_buf (j : Nat) (h : j < 32) :
    (storeBlock b s).buf[j] = if g : j < 16 then b[j] else s.buf[j] := by
  simp [storeBlock]

end WriteBlock

section EnsureSbox
variable (s : State)

@[simp] theorem ensureSbox_buf : (ensureSbox s).buf = s.buf := by unfold ensureSbox; split <;> rfl
@[simp] theorem ensureSbox_len : (ensureSbox s).len = s.len := by unfold ensureSbox; split <;> rfl
@[simp] theorem ensureSbox_s : (ensureSbox s).s = s.s := by unfold ensureSbox; split <;> rfl
@[simp] theorem ensureSbox_wa : (ensureSbox s).wa = s.wa := by unfold ensureSbox; split <;> rfl
@[simp] theorem ensureSbox_wb : (ensureSbox s).wb = s.wb := by unfold ensureSbox; split <;> rfl
@[simp] theorem ensureSbox_sbv : (ensureSbox s).sbv = true := by unfold ensureSbox; split <;> simp_all
@[simp] theorem ensureSbox_sbox : (ensureSbox s).sbox = if s.sbv then s.sbox else sboxTable := by
  unfold ensureSbox; split <;> rfl
@[simp] theorem ensureSbox_pending : (ensureSbox s).pending = s.pending := by unfold ensureSbox; split <;> rfl
@[simp] theorem ensureSbox_responses : (ensureSbox s).responses = s.responses := by
  unfold ensureSbox; split <;> rfl
@[simp] theorem ensureSbox_resets : (ensureSbox s).resets = s.resets := by unfold ensureSbox; split <;> rfl

end EnsureSbox

section PresentFirst
variable (w : Cmd) (s : State)

@[simp] theorem presentFirst_pending : (presentFirst w s).pending = .command w :: s.pending := by unfold presentFirst; rfl
@[simp] theorem presentFirst_len : (presentFirst w s).len = s.len := by unfold presentFirst; rfl
@[simp] theorem presentFirst_responses : (presentFirst w s).responses = s.responses := by unfold presentFirst; rfl

end PresentFirst

end Sys2Proof.Machine
end

