-- ==== Sys2Proof/Laws/Ops.lean ====
section
/-! SUPPORT. What each shared operation can do, once: answering, raising, the buffer and matrix accesses, the lookup in
the S-box table. -/
namespace Sys2Proof.Machine

/-! ### Answers and exceptions -/

/-- An answer is a next state: the one made, with one response more. -/
theorem answer_eq (v : Byte) (t : State) :
    answer v t = .next { t with responses := t.responses ++ [packRsp .ok t.len v] } := rfl

/-- An exception is a next state: the old one, with one response more. -/
theorem raise_eq (e : Err) (s : State) : raise e s = .next (raised e s) := rfl

/-- An answer that ends in `u` is answered in `u`. -/
theorem answer_eq_next_iff (v : Byte) (t u : State) :
    answer v t = .next u ↔ u = { t with responses := t.responses ++ [packRsp .ok t.len v] } := by
  rw [answer_eq]
  exact ⟨fun h => by injection h with h; exact h.symm, fun h => by rw [h]⟩

/-- An exception that ends in `u` has written nothing but its response. -/
theorem raise_eq_next_iff (e : Err) (s u : State) : raise e s = .next u ↔ u = raised e s := by
  rw [raise_eq]
  exact ⟨fun h => by injection h with h; exact h.symm, fun h => by rw [h]⟩

/-! ### The buffer -/

@[simp] theorem bufWord_get (s : State) (j : Nat) (h : j < 4) : (bufWord s)[j] = s.buf[j] := by
  simp [bufWord]

@[simp] theorem bufBlock_get (s : State) (j : Nat) (h : j < 16) : (bufBlock s)[j] = s.buf[j] := by
  simp [bufBlock]

/-! ### The matrix -/

@[simp] theorem cell_matrixOf (f : Fin 4 → Fin 4 → Byte) (r c : Fin 4) : cell (matrixOf f) r c = f r c := by
  simp [cell, matrixOf]

/-- Two matrices with the same cells are the same matrix. -/
theorem matrix_ext (m n : StateMatrix) (h : ∀ r c, cell m r c = cell n r c) : m = n := by
  apply Vector.ext
  intro i hi
  apply Vector.ext
  intro j hj
  exact h ⟨i, hi⟩ ⟨j, hj⟩

/-! ### The S-box table -/

/-- A lookup by nibbles is the entry of the byte they compose (R48). -/
theorem sboxLookup_eq_entry (h l : Nibble) (s : State) : sboxLookup h l s = entry s (composeByte h l) := by
  simp only [sboxLookup, entry, composeByte_toNat]

/-- The finished table holds the S-box function (R112). -/
theorem sboxTable_get (x : Byte) : sboxTable[x.toNat]'x.isLt = sboxvalue (hiNib x) (loNib x) := by
  have h1 : BitVec.ofNat 4 (x.toNat / 16) = hiNib x := by
    apply BitVec.eq_of_toNat_eq
    have := x.isLt
    rw [hiNib_toNat, BitVec.toNat_ofNat]; omega
  have h2 : BitVec.ofNat 4 (x.toNat % 16) = loNib x := by
    apply BitVec.eq_of_toNat_eq
    rw [loNib_toNat, BitVec.toNat_ofNat]; omega
  simp [sboxTable, h1, h2]

/-- With the table built, `EnsureSbox()` does nothing. -/
theorem ensureSbox_of_built (s : State) (h : s.sbv = true) : ensureSbox s = s := by
  unfold ensureSbox; rw [if_pos h]

/-- `EnsureSbox()` leaves what R112 says. -/
theorem ensureSbox_ensures (s : State) : TableEnsured s (ensureSbox s) := by
  refine ⟨ensureSbox_sbv s, fun h => by rw [ensureSbox_of_built s h], fun h x => ?_⟩
  simp only [entry, ensureSbox_sbox, h]
  exact sboxTable_get x

/-- `EnsureSbox()` keeps the table's invariant, and establishes it if the table was not built. -/
theorem ensureSbox_tableOk (s : State) (h : TableOk s) : TableOk (ensureSbox s) := by
  intro _ x
  by_cases hb : s.sbv = true
  · rw [ensureSbox_of_built s hb]; exact h hb x
  · exact (ensureSbox_ensures s).2.2 (by simpa using hb) x

end Sys2Proof.Machine
end

