-- ==== Sys2Proof/Laws/Exec.lean ====
section
/-! SUPPORT. What each command does, branch by branch, as one equation of `exec`; and, once for all commands, that `exec`
raises the exception R151 lists or answers. -/
namespace Sys2Proof.Machine

section Buffer
variable (b k : Operand) (s : State)

theorem exec_clr : exec .clr s = answer 0 { s with len := 0 } := rfl

theorem exec_push_of_room (hb : b.toNat ≤ 255) (hl : s.len.val < 32) :
    exec (.push b) s =
      answer 0 { s with buf := s.buf.set s.len.val (lowByte b) hl, len := ⟨s.len.val + 1, by omega⟩ } := by
  simp only [exec, execPush, (isByte_iff b).2 hb, hl, Bool.not_true, Bool.false_eq_true, if_false, dite_true]

theorem exec_push_of_not_byte (hb : 255 < b.toNat) : exec (.push b) s = raise .invalidArgument s := by
  simp only [exec, execPush, (isByte_eq_false_iff b).2 hb, Bool.not_false, if_true]

theorem exec_push_of_full (hb : b.toNat ≤ 255) (hl : s.len.val = 32) :
    exec (.push b) s = raise .invalidLength s := by
  simp only [exec, execPush, (isByte_iff b).2 hb, hl, Bool.not_true, Bool.false_eq_true, if_false, lt_irrefl,
    dite_false]

theorem exec_rdb_of_lt (h : k.toNat < s.len.val) :
    exec (.rdb k) s = answer (s.buf[k.toNat]'(by omega)) s := by
  simp only [exec, execRdb, h, dite_true]

theorem exec_rdb_of_ge (h : s.len.val ≤ k.toNat) : exec (.rdb k) s = raise .invalidArgument s := by
  simp only [exec, execRdb, Nat.not_lt.2 h, dite_false]

end Buffer

section Field
variable (a b : Operand) (x : WideOperand) (s : State)

theorem exec_deg : exec (.deg x) s = answer (BitVec.ofInt 8 (degree x.toNat)) s := rfl

theorem exec_gmul_of_bytes (ha : a.toNat ≤ 255) (hb : b.toNat ≤ 255) :
    exec (.gmul a b) s = answer (gmul (lowByte a) (lowByte b)) s := by
  simp [exec, execGmul, (isByte_iff a).2 ha, (isByte_iff b).2 hb]

theorem exec_gmul_of_not_bytes (h : 255 < a.toNat ∨ 255 < b.toNat) :
    exec (.gmul a b) s = raise .invalidArgument s := by
  rcases h with h | h <;> simp [exec, execGmul, (isByte_eq_false_iff _).2 h]

theorem exec_ginv_of_some (ha : a.toNat ≤ 255) (v : Byte) (hv : ginv (lowByte a) = some v) :
    exec (.ginv a) s = answer v s := by
  simp [exec, execGinv, (isByte_iff a).2 ha, hv]

theorem exec_ginv_of_none (hv : ginv (lowByte a) = none) : exec (.ginv a) s = raise .invalidArgument s := by
  simp [exec, execGinv, hv]

theorem exec_ginv_of_not_byte (ha : 255 < a.toNat) : exec (.ginv a) s = raise .invalidArgument s := by
  simp [exec, execGinv, (isByte_eq_false_iff a).2 ha]

theorem exec_xsum : exec .xsum s = answer (xorsum (bufBytes s)) s := rfl

theorem exec_ldwa_of_word (h : s.len.val = 4) : exec .ldwa s = answer 0 { s with wa := bufWord s } := by
  simp [exec, execLdwa, h]

theorem exec_ldwa_of_not_word (h : s.len.val ≠ 4) : exec .ldwa s = raise .invalidLength s := by
  simp [exec, execLdwa, h]

theorem exec_ldwb_of_word (h : s.len.val = 4) : exec .ldwb s = answer 0 { s with wb := bufWord s } := by
  simp [exec, execLdwb, h]

theorem exec_ldwb_of_not_word (h : s.len.val ≠ 4) : exec .ldwb s = raise .invalidLength s := by
  simp [exec, execLdwb, h]

theorem exec_wmul : exec .wmul s = answer 0 (storeWord (wmul s.wa s.wb) s) := by
  simp only [exec, execWmul]

end Field

section Sbox
variable (h l : Operand) (s : State)

theorem exec_sboxv_of_nibbles (hh : h.toNat ≤ 15) (hl : l.toNat ≤ 15) :
    exec (.sboxv h l) s = answer (sboxvalue (lowNibble h) (lowNibble l)) s := by
  simp [exec, execSboxv, (isNibble_iff h).2 hh, (isNibble_iff l).2 hl]

theorem exec_sboxv_of_not_nibbles (g : 15 < h.toNat ∨ 15 < l.toNat) :
    exec (.sboxv h l) s = raise .invalidArgument s := by
  rcases g with g | g <;> simp [exec, execSboxv, (isNibble_eq_false_iff _).2 g]

theorem exec_sbgen : exec .sbgen s = answer 0 (ensureSbox s) := by simp only [exec, execSbgen]

theorem exec_sbrd_of_nibbles (hh : h.toNat ≤ 15) (hl : l.toNat ≤ 15) :
    exec (.sbrd h l) s =
      answer (entry (ensureSbox s) (composeByte (lowNibble h) (lowNibble l))) (ensureSbox s) := by
  simp [exec, execSbrd, (isNibble_iff h).2 hh, (isNibble_iff l).2 hl, sboxLookup_eq_entry]

theorem exec_sbrd_of_not_nibbles (g : 15 < h.toNat ∨ 15 < l.toNat) :
    exec (.sbrd h l) s = raise .invalidArgument s := by
  rcases g with g | g <;> simp [exec, execSbrd, (isNibble_eq_false_iff _).2 g]

end Sbox

section Matrix
variable (s : State)

theorem exec_ldst_of_block (h : s.len.val = 16) :
    exec .ldst s = answer 0 { s with s := loadState (bufBlock s) } := by
  simp [exec, execLdst, h]

theorem exec_ldst_of_not_block (h : s.len.val ≠ 16) : exec .ldst s = raise .invalidLength s := by
  simp [exec, execLdst, h]

theorem exec_rdst : exec .rdst s = answer 0 (storeBlock (readState s.s) s) := by simp only [exec, execRdst]

theorem exec_sub : exec .sub s = answer 0 { ensureSbox s with s := substituteBytes (ensureSbox s) } := by
  simp only [exec, execSub]

theorem exec_shr : exec .shr s = answer 0 { s with s := shiftRows s.s } := by simp only [exec, execShr]

theorem exec_mix : exec .mix s = answer 0 { s with s := mixColumns s.s } := by simp only [exec, execMix]

@[simp] theorem cell_loadState (b : Block) (r c : Fin 4) : cell (loadState b) r c = b[r.val + 4 * c.val] := by
  simp [loadState]

@[simp] theorem readState_get (m : StateMatrix) (j : Nat) (h : j < 16) :
    (readState m)[j] = cell m ⟨j % 4, by omega⟩ ⟨j / 4, by omega⟩ := by
  simp [readState]

@[simp] theorem cell_substituteBytes (t : State) (r c : Fin 4) :
    cell (substituteBytes t) r c = entry t (cell t.s r c) := by
  simp [substituteBytes, sboxLookup_eq_entry]

@[simp] theorem cell_shiftRows (m : StateMatrix) (r c : Fin 4) : cell (shiftRows m) r c = cell m r (c + r) := by
  simp only [shiftRows, cell_matrixOf]; rfl

theorem cell_mixColumns (m : StateMatrix) (r c : Fin 4) :
    cell (mixColumns m) r c = (mixColumn (cell m 0 c) (cell m 1 c) (cell m 2 c) (cell m 3 c))[r.val] := by
  simp only [mixColumns, cell_matrixOf]

end Matrix

section Doubling
variable (s : State)

theorem exec_dbl_of_block (h : s.len.val = 16) :
    exec .dbl s = answer (byteOfBool (dbl (bufBlock s)).2) (writeBlock (dbl (bufBlock s)).1 s) := by
  simp [exec, execDbl, h]

theorem exec_dbl_of_not_block (h : s.len.val ≠ 16) : exec .dbl s = raise .invalidLength s := by
  simp [exec, execDbl, h]

theorem exec_dblx_of_block (h : s.len.val = 16) :
    exec .dblx s =
      answer (byteOfBool (dbl (bufBlock s)).2)
        (writeBlock (xorOnCarry (dbl (bufBlock s)).1 (dbl (bufBlock s)).2) s) := by
  simp [exec, execDblx, h]

theorem exec_dblx_of_not_block (h : s.len.val ≠ 16) : exec .dblx s = raise .invalidLength s := by
  simp [exec, execDblx, h]

theorem dbl_carry (b : Block) : (dbl b).2 = b[0].getLsbD 7 := by simp [dbl, carryVector]

theorem dbl_get (b : Block) (j : Nat) (h : j < 15) : (dbl b).1[j] = b[j] <<< 1 ||| b[j + 1] >>> 7 := by
  have h' : j + 1 < 16 := by omega
  simp [dbl, carryVector, ← byteOfBool_getLsbD_seven, h']

theorem dbl_get_last (b : Block) : (dbl b).1[15] = b[15] <<< 1 := by simp [dbl]

end Doubling

/-! ### The inverse -/

theorem lowByte_eq_zero_iff (a : Operand) (h : a.toNat ≤ 255) : lowByte a = 0 ↔ a.toNat = 0 := by
  rw [← BitVec.toNat_inj, lowByte_toNat a h]; rfl

/-- What the search finds is an inverse. -/
theorem gmul_of_ginv (a b : Byte) (h : ginv a = some b) : gmul a b = 1 := by
  have := List.find?_some h
  simpa using this

/-- The search finds something exactly when there is an inverse to find. -/
theorem ginv_isSome_iff (a : Byte) : (ginv a).isSome = true ↔ ∃ b, gmul a b = 1 := by
  have hmem : ∀ b : Byte, b ∈ fieldElements := fun b =>
    List.mem_map.2 ⟨b.toNat, List.mem_range.2 b.isLt, by simp⟩
  simp only [ginv, List.find?_isSome]
  exact ⟨fun ⟨b, _, h⟩ => ⟨b, by simpa using h⟩, fun ⟨b, h⟩ => ⟨b, hmem b, by simpa using h⟩⟩

/-! ### All commands at once -/

/-- What a command can do: raise an exception, writing nothing, or answer from a state whose host side is the old one. -/
theorem exec_raises_or_answers (i : Instr) (s : State) :
    (∃ e, e ≠ .ok ∧ exec i s = raise e s) ∨
      ∃ v t, exec i s = answer v t ∧ t.responses = s.responses ∧ KeepsHostSide s t := by
  cases i with
  | clr => exact .inr ⟨_, _, exec_clr s, rfl, rfl, rfl⟩
  | push b =>
    have := s.len.isLt
    by_cases hb : b.toNat ≤ 255
    · by_cases hl : s.len.val < 32
      · exact .inr ⟨_, _, exec_push_of_room b s hb hl, rfl, rfl, rfl⟩
      · exact .inl ⟨_, by decide, exec_push_of_full b s hb (by omega)⟩
    · exact .inl ⟨_, by decide, exec_push_of_not_byte b s (by omega)⟩
  | rdb k =>
    by_cases h : k.toNat < s.len.val
    · exact .inr ⟨_, _, exec_rdb_of_lt k s h, rfl, rfl, rfl⟩
    · exact .inl ⟨_, by decide, exec_rdb_of_ge k s (by omega)⟩
  | deg x => exact .inr ⟨_, _, exec_deg x s, rfl, rfl, rfl⟩
  | gmul a b =>
    by_cases h : 255 < a.toNat ∨ 255 < b.toNat
    · exact .inl ⟨_, by decide, exec_gmul_of_not_bytes a b s h⟩
    · exact .inr ⟨_, _, exec_gmul_of_bytes a b s (by omega) (by omega), rfl, rfl, rfl⟩
  | ginv a =>
    by_cases ha : a.toNat ≤ 255
    · cases hv : ginv (lowByte a) with
      | none => exact .inl ⟨_, by decide, exec_ginv_of_none a s hv⟩
      | some v => exact .inr ⟨_, _, exec_ginv_of_some a s ha v hv, rfl, rfl, rfl⟩
    · exact .inl ⟨_, by decide, exec_ginv_of_not_byte a s (by omega)⟩
  | xsum => exact .inr ⟨_, _, exec_xsum s, rfl, rfl, rfl⟩
  | ldwa =>
    by_cases h : s.len.val = 4
    · exact .inr ⟨_, _, exec_ldwa_of_word s h, rfl, rfl, rfl⟩
    · exact .inl ⟨_, by decide, exec_ldwa_of_not_word s h⟩
  | ldwb =>
    by_cases h : s.len.val = 4
    · exact .inr ⟨_, _, exec_ldwb_of_word s h, rfl, rfl, rfl⟩
    · exact .inl ⟨_, by decide, exec_ldwb_of_not_word s h⟩
  | wmul => exact .inr ⟨_, _, exec_wmul s, storeWord_responses _ _, storeWord_pending _ _, storeWord_resets _ _⟩
  | sboxv h l =>
    by_cases g : 15 < h.toNat ∨ 15 < l.toNat
    · exact .inl ⟨_, by decide, exec_sboxv_of_not_nibbles h l s g⟩
    · exact .inr ⟨_, _, exec_sboxv_of_nibbles h l s (by omega) (by omega), rfl, rfl, rfl⟩
  | sbgen =>
    exact .inr ⟨_, _, exec_sbgen s, ensureSbox_responses s, ensureSbox_pending s, ensureSbox_resets s⟩
  | sbrd h l =>
    by_cases g : 15 < h.toNat ∨ 15 < l.toNat
    · exact .inl ⟨_, by decide, exec_sbrd_of_not_nibbles h l s g⟩
    · exact .inr ⟨_, _, exec_sbrd_of_nibbles h l s (by omega) (by omega), ensureSbox_responses s,
        ensureSbox_pending s, ensureSbox_resets s⟩
  | ldst =>
    by_cases h : s.len.val = 16
    · exact .inr ⟨_, _, exec_ldst_of_block s h, rfl, rfl, rfl⟩
    · exact .inl ⟨_, by decide, exec_ldst_of_not_block s h⟩
  | rdst =>
    exact .inr ⟨_, _, exec_rdst s, storeBlock_responses _ _, storeBlock_pending _ _, storeBlock_resets _ _⟩
  | sub => exact .inr ⟨_, _, exec_sub s, ensureSbox_responses s, ensureSbox_pending s, ensureSbox_resets s⟩
  | shr => exact .inr ⟨_, _, exec_shr s, rfl, rfl, rfl⟩
  | mix => exact .inr ⟨_, _, exec_mix s, rfl, rfl, rfl⟩
  | dbl =>
    by_cases h : s.len.val = 16
    · exact .inr ⟨_, _, exec_dbl_of_block s h, writeBlock_responses _ _, writeBlock_pending _ _,
        writeBlock_resets _ _⟩
    · exact .inl ⟨_, by decide, exec_dbl_of_not_block s h⟩
  | dblx =>
    by_cases h : s.len.val = 16
    · exact .inr ⟨_, _, exec_dblx_of_block s h, writeBlock_responses _ _, writeBlock_pending _ _,
        writeBlock_resets _ _⟩
    · exact .inl ⟨_, by decide, exec_dblx_of_not_block s h⟩

end Sys2Proof.Machine
end

