-- ==== Sys2Proof/Laws/Galois.lean ====
section
/-! SUPPORT. The field product is linear in each operand (spec/41_field_arithmetic.md R92, R96): one iteration of the loop
is, so the loop is; and a property of bytes that holds of 0 and of the eight powers of `x` and survives XOR holds of every
byte. Together they settle a claim about all products by looking at the powers of `x`. -/
namespace Sys2Proof.Machine

/-- A nine-bit value has degree 8 exactly when its top bit is set (R90). -/
theorem degree_eq_fieldDegree_iff (x : BitVec 9) : degree x.toNat = Config.fieldDegree ↔ x.getLsbD 8 = true := by
  revert x; decide

/-- One doubling step of the loop: shift, then reduce when the degree has reached 8 (R92). -/
def reduceShift (bb : BitVec 9) : BitVec 9 :=
  bif (bb <<< 1).getLsbD 8 then bb <<< 1 ^^^ Config.fieldModulus else bb <<< 1

/-- The loop, one iteration unrolled, in terms of `reduceShift`. -/
theorem gmulLoop_succ (n : Nat) (acc aa : Byte) (bb : BitVec 9) :
    gmulLoop (n + 1) acc aa bb =
      gmulLoop n (bif aa.getLsbD 0 then acc ^^^ bb.setWidth 8 else acc) (aa >>> 1) (reduceShift bb) := by
  simp only [gmulLoop, reduceShift, degree_eq_fieldDegree_iff, cond_eq_ite]

theorem reduceShift_xor (x y : BitVec 9) : reduceShift (x ^^^ y) = reduceShift x ^^^ reduceShift y := by
  simp only [reduceShift, BitVec.shiftLeft_xor_distrib, BitVec.getLsbD_xor]
  have h (u v m : BitVec 9) : u ^^^ m ^^^ (v ^^^ m) = u ^^^ v := by
    rw [show u ^^^ m ^^^ (v ^^^ m) = u ^^^ v ^^^ (m ^^^ m) by ac_rfl, BitVec.xor_self]
    exact BitVec.xor_zero
  cases (x <<< 1).getLsbD 8 <;> cases (y <<< 1).getLsbD 8 <;>
    simp only [Bool.xor_true, Bool.xor_false, Bool.not_true, Bool.not_false, cond_true, cond_false]
  · ac_rfl
  · ac_rfl
  · exact (h _ _ _).symm

/-- The loop is linear in the second operand. -/
theorem gmulLoop_xor_right (n : Nat) :
    ∀ (acc acc' aa : Byte) (bb bb' : BitVec 9),
      gmulLoop n (acc ^^^ acc') aa (bb ^^^ bb') = gmulLoop n acc aa bb ^^^ gmulLoop n acc' aa bb' := by
  induction n with
  | zero => intro acc acc' aa bb bb'; rfl
  | succ n ih =>
    intro acc acc' aa bb bb'
    simp only [gmulLoop_succ, reduceShift_xor, ← ih]
    congr 1
    cases aa.getLsbD 0
    · rfl
    · simp only [cond_true, BitVec.setWidth_xor]
      ac_rfl

/-- The loop is linear in the first operand. -/
theorem gmulLoop_xor_left (n : Nat) :
    ∀ (acc acc' aa aa' : Byte) (bb : BitVec 9),
      gmulLoop n (acc ^^^ acc') (aa ^^^ aa') bb = gmulLoop n acc aa bb ^^^ gmulLoop n acc' aa' bb := by
  induction n with
  | zero => intro acc acc' aa aa' bb; rfl
  | succ n ih =>
    intro acc acc' aa aa' bb
    simp only [gmulLoop_succ, BitVec.ushiftRight_xor_distrib, ← ih]
    congr 1
    simp only [BitVec.getLsbD_xor]
    have h : bb.setWidth 8 ^^^ bb.setWidth 8 = (0 : Byte) := BitVec.xor_self
    cases aa.getLsbD 0 <;> cases aa'.getLsbD 0 <;>
      simp only [Bool.xor_true, Bool.xor_false, Bool.not_true, Bool.not_false, cond_true, cond_false]
    · ac_rfl
    · ac_rfl
    · rw [show acc ^^^ bb.setWidth 8 ^^^ (acc' ^^^ bb.setWidth 8) =
        acc ^^^ acc' ^^^ (bb.setWidth 8 ^^^ bb.setWidth 8) by ac_rfl, h]
      exact BitVec.xor_zero.symm

/-- `gmul(a, b ⊕ c) = gmul(a, b) ⊕ gmul(a, c)`. -/
theorem gmul_xor_right (a b c : Byte) : gmul a (b ^^^ c) = gmul a b ^^^ gmul a c := by
  have := gmulLoop_xor_right 8 0 0 a (b.setWidth 9) (c.setWidth 9)
  rwa [BitVec.xor_self, ← BitVec.setWidth_xor] at this

/-- `gmul(a ⊕ b, c) = gmul(a, c) ⊕ gmul(b, c)`. -/
theorem gmul_xor_left (a b c : Byte) : gmul (a ^^^ b) c = gmul a c ^^^ gmul b c := by
  have := gmulLoop_xor_left 8 0 0 a b (c.setWidth 9)
  rwa [BitVec.xor_self] at this

/-- A byte is the XOR of its eight bits, each in its place. -/
theorem byte_eq_xor_bits (x : Byte) :
    x = (x &&& 0x01#8) ^^^ (x &&& 0x02#8) ^^^ (x &&& 0x04#8) ^^^ (x &&& 0x08#8) ^^^
      (x &&& 0x10#8) ^^^ (x &&& 0x20#8) ^^^ (x &&& 0x40#8) ^^^ (x &&& 0x80#8) := by
  revert x; decide

/-- What holds of 0 and of the powers of `x` below `x^8`, and survives XOR, holds of every byte. -/
theorem byte_induction (P : Byte → Prop) (zero : P 0) (pow : ∀ k < 8, P (1#8 <<< k))
    (xor : ∀ x y, P x → P y → P (x ^^^ y)) (x : Byte) : P x := by
  have bit : ∀ k < 8, P (x &&& 1#8 <<< k) := by
    intro k hk
    have h : x &&& 1#8 <<< k = 0 ∨ x &&& 1#8 <<< k = 1#8 <<< k := by
      revert x k; decide
    rcases h with h | h <;> rw [h]
    · exact zero
    · exact pow k hk
  rw [byte_eq_xor_bits x]
  exact xor _ _ (xor _ _ (xor _ _ (xor _ _ (xor _ _ (xor _ _ (xor _ _ (bit 0 (by decide)) (bit 1 (by decide)))
    (bit 2 (by decide))) (bit 3 (by decide))) (bit 4 (by decide))) (bit 5 (by decide))) (bit 6 (by decide)))
    (bit 7 (by decide))

end Sys2Proof.Machine
end

