-- ==== Sys2Proof/Laws/PerInstr.lean ====
section
/-! SUPPORT. The families of per-instruction lemmas: `EncodingFitsRow` says that the encoder's word is one that the row of
the opcode map (spec/30_encoding.md R65) accepts, whatever the operands. -/
namespace Sys2Proof.Laws.EncodingFitsRow

/-- The word of `i` is accepted by the row of `i`. -/
def Statement (i : Instr) : Prop := i.row.accepts (encode i) = true

theorem clr : Statement .clr := by unfold Statement; decide
theorem xsum : Statement .xsum := by unfold Statement; decide
theorem ldwa : Statement .ldwa := by unfold Statement; decide
theorem ldwb : Statement .ldwb := by unfold Statement; decide
theorem wmul : Statement .wmul := by unfold Statement; decide
theorem sbgen : Statement .sbgen := by unfold Statement; decide
theorem ldst : Statement .ldst := by unfold Statement; decide
theorem rdst : Statement .rdst := by unfold Statement; decide
theorem sub : Statement .sub := by unfold Statement; decide
theorem shr : Statement .shr := by unfold Statement; decide
theorem mix : Statement .mix := by unfold Statement; decide
theorem dbl : Statement .dbl := by unfold Statement; decide
theorem dblx : Statement .dblx := by unfold Statement; decide

/-- Masking away all but the opcode of a word leaves the opcode. -/
theorem mask_opcode (op : BitVec 8) (x : WideOperand) :
    ((op ++ x : BitVec (8 + 24)) &&& (0xFF000000#32 : Cmd)) = (op ++ (0 : WideOperand) : BitVec (8 + 24)) := by
  have h : (0xFF000000#32 : Cmd) = ((BitVec.allOnes 8) ++ (0 : WideOperand) : BitVec (8 + 24)) := by decide
  rw [h, BitVec.and_append, BitVec.and_allOnes]
  simp

/-- Masking away field `A` of a word with `B = 0` leaves the opcode. -/
theorem mask_operandA (op : BitVec 8) (a : Operand) :
    ((op ++ (a ++ (0 : Operand) : BitVec (12 + 12)) : BitVec (8 + (12 + 12))) &&& (0xFF000FFF#32 : Cmd)) =
      (op ++ (0 : WideOperand) : BitVec (8 + 24)) := by
  have h : (0xFF000FFF#32 : Cmd) =
      ((BitVec.allOnes 8) ++ ((0 : Operand) ++ BitVec.allOnes 12 : BitVec (12 + 12)) : BitVec (8 + (12 + 12))) := by
    decide
  have z : (0 : WideOperand) = ((0 : Operand) ++ (0 : Operand) : BitVec (12 + 12)) := by decide
  rw [h, BitVec.and_append, BitVec.and_allOnes, BitVec.and_append, z]
  simp

theorem push (b : Operand) : Statement (.push b) := by
  have := mask_operandA 0x02#8 b
  exact beq_iff_eq.2 (this.trans (by rfl))
theorem rdb (k : Operand) : Statement (.rdb k) := by
  have := mask_operandA 0x03#8 k
  exact beq_iff_eq.2 (this.trans (by rfl))
theorem ginv (a : Operand) : Statement (.ginv a) := by
  have := mask_operandA 0x12#8 a
  exact beq_iff_eq.2 (this.trans (by rfl))
theorem deg (x : WideOperand) : Statement (.deg x) := by
  have := mask_opcode 0x10#8 x
  exact beq_iff_eq.2 (this.trans (by rfl))
theorem gmul (a b : Operand) : Statement (.gmul a b) := by
  have := mask_opcode 0x11#8 (a ++ b)
  exact beq_iff_eq.2 (this.trans (by rfl))
theorem sboxv (h l : Operand) : Statement (.sboxv h l) := by
  have := mask_opcode 0x20#8 (h ++ l)
  exact beq_iff_eq.2 (this.trans (by rfl))
theorem sbrd (h l : Operand) : Statement (.sbrd h l) := by
  have := mask_opcode 0x22#8 (h ++ l)
  exact beq_iff_eq.2 (this.trans (by rfl))

end Sys2Proof.Laws.EncodingFitsRow
end

