-- ==== Sys2Proof/Laws/Port.lean ====
section
/-! SUPPORT. What one step can do: the three moves of the host. -/
namespace Sys2Proof.Machine

/-- The three ways a step can go: nothing presented, a command word, a reset. -/
theorem step_cases (s : State) :
    (s.pending = [] ∧ step s = .next s) ∨
      (∃ w rest, Presents s w rest ∧ step s = runCommand w { s with pending := rest }) ∨
      ∃ rest, s.pending = .reset :: rest ∧ step s = hostReset { s with pending := rest } := by
  unfold step takeMove
  split
  · exact .inl ⟨by assumption, rfl⟩
  · exact .inr (.inl ⟨_, _, by assumption, rfl⟩)
  · exact .inr (.inr ⟨_, by assumption, rfl⟩)

/-- Reset leaves the next reset state, with the host's side of the port as it was. -/
theorem hostReset_eq (s : State) :
    hostReset s = .next (State.afterReset (s.resets + 1) s.pending s.responses) := rfl

/-- A presented word that spells a command runs its meaning. -/
theorem runCommand_of_ok (w : Cmd) (i : Instr) (h : decode w = .ok i) (s : State) : runCommand w s = exec i s := by
  simp only [runCommand, h]

/-- A presented word that spells none raises `IllegalCommand`. -/
theorem runCommand_of_error (w : Cmd) (e : DecodeError) (h : decode w = .error e) (s : State) :
    runCommand w s = raise .illegalCommand s := by
  simp only [runCommand, h]

/-- What a presented word can do: raise an exception, writing nothing, or answer. -/
theorem runCommand_raises_or_answers (w : Cmd) (s : State) :
    (∃ e, e ≠ .ok ∧ runCommand w s = raise e s) ∨
      ∃ v t, runCommand w s = answer v t ∧ t.responses = s.responses ∧ KeepsHostSide s t := by
  cases h : decode w with
  | error e => exact .inl ⟨_, by decide, runCommand_of_error w e h s⟩
  | ok i => rw [runCommand_of_ok w i h s]; exact exec_raises_or_answers i s

end Sys2Proof.Machine
end

