-- ==== Sys2Proof/Tests/Slice0.lean ====
section
/-! SUPPORT. The model's own tests: words written out bit by bit from spec/30_encoding.md, the worked examples and vectors of
spec/ one step each, refused words, and for each statement with hypotheses a concrete case that meets them. -/
namespace Sys2Proof.Tests
open Sys2Proof.Machine

/-- A state whose buffer holds the bytes `bs` (at most 32); the rest as after reset. -/
def holding (bs : List Byte) : State :=
  { State.reset with buf := Vector.ofFn fun j => bs.getD j.val 0, len := ⟨min bs.length 32, by omega⟩ }

/-- A state whose matrix is `m`; the rest as after reset. -/
def withMatrix (m : StateMatrix) : State := { State.reset with s := m }

/-- Look at the next state, if there is one. -/
def after {α : Type} (r : Result) (f : State → α) : Option α :=
  match r with
  | .next t => some (f t)
  | .fault _ => none
  | .refused _ => none

/-- The length, the bytes in the buffer and the responses. -/
def bufferSeen (t : State) : Nat × List Byte × List Rsp := (t.len.val, bufBytes t, t.responses)

/-- The rows of the matrix and the responses. -/
def matrixSeen (t : State) : List (List Byte) × List Rsp := (t.s.toList.map (·.toList), t.responses)

/-! ### Decoding: one word per command, written from its encoding `OP | A | B` (R60, R65) -/

theorem test_decode_clr : decode 0b00000001000000000000000000000000#32 = .ok (.clr) := by decide

theorem test_decode_push : decode 0b00000010000001010011000000000000#32 = .ok (.push 0x53) := by decide

theorem test_decode_rdb : decode 0b00000011000000001111000000000000#32 = .ok (.rdb 15) := by decide

theorem test_decode_deg : decode 0b00010000000000000000000100011011#32 = .ok (.deg 0x11B) := by decide

theorem test_decode_gmul : decode 0b00010001000001010111000010000011#32 = .ok (.gmul 0x57 0x83) := by decide

theorem test_decode_ginv : decode 0b00010010000001010011000000000000#32 = .ok (.ginv 0x53) := by decide

theorem test_decode_xsum : decode 0b00010011000000000000000000000000#32 = .ok (.xsum) := by decide

theorem test_decode_ldwa : decode 0b00010100000000000000000000000000#32 = .ok (.ldwa) := by decide

theorem test_decode_ldwb : decode 0b00010101000000000000000000000000#32 = .ok (.ldwb) := by decide

theorem test_decode_wmul : decode 0b00010110000000000000000000000000#32 = .ok (.wmul) := by decide

theorem test_decode_sboxv : decode 0b00100000000000000101000000000011#32 = .ok (.sboxv 5 3) := by decide

theorem test_decode_sbgen : decode 0b00100001000000000000000000000000#32 = .ok (.sbgen) := by decide

theorem test_decode_sbrd : decode 0b00100010000000001111000000001111#32 = .ok (.sbrd 15 15) := by decide

theorem test_decode_ldst : decode 0b00110000000000000000000000000000#32 = .ok (.ldst) := by decide

theorem test_decode_rdst : decode 0b00110001000000000000000000000000#32 = .ok (.rdst) := by decide

theorem test_decode_sub : decode 0b01000000000000000000000000000000#32 = .ok (.sub) := by decide

theorem test_decode_shr : decode 0b01000001000000000000000000000000#32 = .ok (.shr) := by decide

theorem test_decode_mix : decode 0b01000010000000000000000000000000#32 = .ok (.mix) := by decide

theorem test_decode_dbl : decode 0b01010000000000000000000000000000#32 = .ok (.dbl) := by decide

theorem test_decode_dblx : decode 0b01010001000000000000000000000000#32 = .ok (.dblx) := by decide

/-- The largest operands keep every bit (D-ENC). -/
theorem test_decode_extremes :
    decode 0x10FFFFFF#32 = .ok (.deg 0xFFFFFF) ∧ decode 0x11FFFFFF#32 = .ok (.gmul 0xFFF 0xFFF) ∧
      decode 0x02FFF000#32 = .ok (.push 0xFFF) ∧ encode (.sbrd 15 15) = 0x2200F00F#32 := by decide

theorem test_table_word : decodeTableWord 32 0x12053000 = some (.ginv 0x53) := by decide

/-! ### Ill-formed words: one for each check, refused by the check and by the decoder (R66, D-ENC) -/

theorem test_ill_formed_opcode_zero :
    wellFormed 0x00000000#32 = false ∧ decode 0x00000000#32 = .error (.unassignedOpcode 0x00) := by decide

theorem test_ill_formed_opcode_ones :
    wellFormed 0xFFFFFFFF#32 = false ∧ decode 0xFFFFFFFF#32 = .error (.unassignedOpcode 0xFF) := by decide

theorem test_ill_formed_opcode_gap :
    wellFormed 0x17000000#32 = false ∧ decode 0x17000000#32 = .error (.unassignedOpcode 0x17) := by decide

theorem test_ill_formed_formatN_A :
    wellFormed 0x01001000#32 = false ∧ decode 0x01001000#32 = .error (.unusedFieldNotZero 0x01) := by decide

theorem test_ill_formed_formatN_B :
    wellFormed 0x13000001#32 = false ∧ decode 0x13000001#32 = .error (.unusedFieldNotZero 0x13) := by decide

theorem test_ill_formed_formatA_B :
    wellFormed 0x02001001#32 = false ∧ decode 0x02001001#32 = .error (.unusedFieldNotZero 0x02) := by decide

theorem test_opcode_rows_disjoint :
    opcodeRows.Pairwise fun r q => r.matchBits &&& q.maskBits ≠ q.matchBits ∧ q.matchBits &&& r.maskBits ≠ r.matchBits := by
  decide

/-! ### The step -/

/-- D-ENC: the all-zeros word on a fresh engine. -/
theorem test_step_illegal_word :
    after (step (State.reset.withFetchWord 32 0)) (fun t => (t.len.val, t.responses)) = some (0, [0xC000#16]) := by decide +kernel

/-- D-BUF: `PUSH 0xFF` presented to a fresh engine. -/
theorem test_step_push :
    after (step (State.reset.withFetchWord 32 0x020FF000)) bufferSeen = some (1, [0xFF], [0x0100#16]) := by decide +kernel

/-- R180: reset empties the buffer and gives no response. -/
theorem test_step_reset :
    after (step { holding [1, 2, 3] with pending := [.reset], sbv := true })
      (fun t => (t.len.val, t.sbv, t.responses, t.pending)) = some (0, false, [], []) := by decide +kernel

/-! ### The commands (spec/95_test_vectors.md and the rules' examples) -/

/-- R81: `LEN = 16`, `CLR` responds `0x0000`. -/
theorem test_clr :
    after (exec .clr (holding (List.replicate 16 7))) bufferSeen = some (0, [], [0x0000#16]) := by decide +kernel

/-- R82: `LEN = 3`, `PUSH 0xCC`. -/
theorem test_push :
    after (exec (.push 0xCC) (holding [0xAA, 0xBB, 0x00])) bufferSeen =
      some (4, [0xAA, 0xBB, 0x00, 0xCC], [0x0400#16]) := by decide +kernel

/-- D-BUF: `PUSH 0x20` and `PUSH 0x100` on a full buffer. -/
theorem test_push_errors :
    after (exec (.push 0x20) (holding (List.replicate 32 1))) (·.responses) = some [0x6000#16] ∧
      after (exec (.push 0x100) (holding (List.replicate 32 1))) (·.responses) = some [0xA000#16] := by decide +kernel

/-- R83: the last byte, and one past it. -/
theorem test_rdb :
    after (exec (.rdb 3) (holding [0x5F, 0x72, 0x64, 0x15])) (·.responses) = some [0x0415#16] ∧
      after (exec (.rdb 4) (holding [0x5F, 0x72, 0x64, 0x15])) (·.responses) = some [0x8400#16] := by decide +kernel

/-- D-BUF: `RDB 31` on a full buffer. -/
theorem test_rdb_full :
    after (exec (.rdb 31) (holding ((List.range 32).map (BitVec.ofNat 8)))) (·.responses) = some [0x201F#16] := by decide +kernel

/-- D-DEG: 0, the modulus, the largest operand. -/
theorem test_deg :
    after (exec (.deg 0) State.reset) (·.responses) = some [0x00FF#16] ∧
      after (exec (.deg 0x11B) State.reset) (·.responses) = some [0x0008#16] ∧
      after (exec (.deg 0xFFFFFF) State.reset) (·.responses) = some [0x0017#16] := by decide +kernel

/-- D-GMUL: the traced product, the largest operands, the first reduction. -/
theorem test_gmul :
    gmul 0x57 0x13 = 0xFE ∧ gmul 0xFF 0xFF = 0x13 ∧ gmul 0x02 0x80 = 0x1B ∧
      after (exec (.gmul 0x57 0x83) State.reset) (·.responses) = some [0x00C1#16] := by decide +kernel

/-- D-GMUL: either operand out of range. -/
theorem test_gmul_error :
    after (exec (.gmul 0x100 1) State.reset) (·.responses) = some [0x8000#16] ∧
      after (exec (.gmul 0 0x100) State.reset) (·.responses) = some [0x8000#16] := by decide +kernel

/-- D-INV: `GINV 0xFF`, `GINV 2`. -/
theorem test_ginv :
    after (exec (.ginv 0xFF) State.reset) (·.responses) = some [0x001C#16] ∧
      after (exec (.ginv 2) State.reset) (·.responses) = some [0x008D#16] := by decide +kernel

/-- D-INV: `GINV 0` and `GINV 0x100`. -/
theorem test_ginv_error :
    after (exec (.ginv 0) State.reset) (·.responses) = some [0x8000#16] ∧
      after (exec (.ginv 0x100) State.reset) (·.responses) = some [0x8000#16] := by decide +kernel

/-- D-XSUM. -/
theorem test_xsum :
    after (exec .xsum (holding [0xAA, 0xBB, 0xCC])) (·.responses) = some [0x03DD#16] ∧
      after (exec .xsum (holding [])) (·.responses) = some [0x0000#16] := by decide +kernel

/-- R99: the Word, and the wrong length. -/
theorem test_ldwa :
    after (exec .ldwa (holding [2, 1, 1, 3])) (fun t => (t.wa.toList, t.responses)) =
        some ([2, 1, 1, 3], [0x0400#16]) ∧
      after (exec .ldwa (holding [2, 1, 1])) (·.responses) = some [0x4300#16] := by decide +kernel

/-- R100. -/
theorem test_ldwb :
    after (exec .ldwb (holding [0x63, 0x53, 0xE0, 0x8C])) (fun t => (t.wb.toList, t.responses)) =
      some ([0x63, 0x53, 0xE0, 0x8C], [0x0400#16]) := by decide +kernel

/-- R101: column 0 of the MixColumns vector; from an empty buffer. -/
theorem test_wmul :
    after (exec .wmul { holding [] with wa := #v[2, 1, 1, 3], wb := #v[0x63, 0x53, 0xE0, 0x8C] }) bufferSeen =
      some (4, [0x5F, 0x72, 0x64, 0x15], [0x0400#16]) := by decide +kernel

/-- D-WMUL: multiplying by `x` rotates up. -/
theorem test_wmul_rotate :
    (wmul #v[0, 1, 0, 0] #v[0xDE, 0xAD, 0xBE, 0xEF]).toList = [0xEF, 0xDE, 0xAD, 0xBE] := by decide +kernel

/-- D-SBOX: the worked value, the source's anchors. -/
theorem test_sboxv :
    after (exec (.sboxv 5 3) State.reset) (fun t => (t.sbv, t.responses)) = some (false, [0x00ED#16]) ∧
      sboxvalue 0 0 = 0x63 ∧ sboxvalue 0 1 = 0x7C := by decide +kernel

/-- D-SBOX. -/
theorem test_sboxv_error :
    after (exec (.sboxv 16 0) State.reset) (·.responses) = some [0x8000#16] ∧
      after (exec (.sboxv 0 16) State.reset) (·.responses) = some [0x8000#16] := by decide +kernel

/-- R113: two entries of the table after `SBGEN`. -/
theorem test_sbgen :
    after (exec .sbgen State.reset) (fun t => (t.sbv, t.sbox[0x53], t.sbox[0xFF], t.responses)) =
      some (true, 0xED, 0x16, [0x0000#16]) := by decide +kernel

/-- D-SBOX: `SBRD 15, 15` builds the table; an erring `SBRD` does not. -/
theorem test_sbrd :
    after (exec (.sbrd 15 15) State.reset) (fun t => (t.sbv, t.responses)) = some (true, [0x0016#16]) ∧
      after (exec (.sbrd 0 16) State.reset) (fun t => (t.sbv, t.responses)) = some (false, [0x8000#16]) := by decide +kernel

/-- R112: a table that is built is read, not built again. -/
theorem test_sbrd_built :
    after (exec (.sbrd 5 3) { State.reset with sbv := true, sbox := Vector.ofFn fun x => BitVec.ofNat 8 x.val })
      (·.responses) = some [0x0053#16] := by decide +kernel

/-- R120: the rows of the counting block. -/
theorem test_ldst :
    after (exec .ldst (holding [0x00, 0x01, 0x02, 0x03, 0x04, 0x05, 0x06, 0x07, 0x08, 0x09, 0x0A, 0x0B, 0x0C, 0x0D, 0x0E, 0x0F]))
      matrixSeen = some ([[0x00, 0x04, 0x08, 0x0C], [0x01, 0x05, 0x09, 0x0D], [0x02, 0x06, 0x0A, 0x0E],
        [0x03, 0x07, 0x0B, 0x0F]], [0x1000#16]) := by decide +kernel

/-- D-CODEC: 17 bytes are no Block. -/
theorem test_ldst_error :
    after (exec .ldst (holding (List.replicate 17 1))) (·.responses) = some [0x5100#16] := by decide +kernel

/-- R44, S6: the matrix read back as a Block, from an empty buffer. -/
theorem test_rdst :
    after (exec .rdst (withMatrix #v[#v[0x63, 0x09, 0xCD, 0xBA], #v[0xCA, 0x53, 0x60, 0x70], #v[0xB7, 0xD0, 0xE0, 0xE1],
      #v[0x04, 0x51, 0xE7, 0x8C]])) bufferSeen =
      some (16, [0x63, 0xCA, 0xB7, 0x04, 0x09, 0x53, 0xD0, 0x51, 0xCD, 0x60, 0xE0, 0xE7, 0xBA, 0x70, 0xE1, 0x8C],
        [0x1000#16]) := by decide +kernel

/-- R130: `0x00`, `0x52`, `0x53` and `0xFF` become `0x63`, `0x00`, `0xED` and `0x16`. -/
theorem test_sub :
    after (exec .sub (withMatrix #v[#v[0x00, 0x52, 0, 0], #v[0x53, 0, 0, 0], #v[0, 0, 0, 0], #v[0, 0, 0, 0xFF]]))
      (fun t => (t.sbv, [cell t.s 0 0, cell t.s 0 1, cell t.s 1 0, cell t.s 3 3], t.responses)) =
      some (true, [0x63, 0x00, 0xED, 0x16], [0x0000#16]) := by decide +kernel

/-- S6: ShiftRows of the source's vector. -/
theorem test_shr :
    after (exec .shr (withMatrix #v[#v[0x63, 0x09, 0xCD, 0xBA], #v[0xCA, 0x53, 0x60, 0x70], #v[0xB7, 0xD0, 0xE0, 0xE1],
      #v[0x04, 0x51, 0xE7, 0x8C]])) matrixSeen =
      some ([[0x63, 0x09, 0xCD, 0xBA], [0x53, 0x60, 0x70, 0xCA], [0xE0, 0xE1, 0xB7, 0xD0],
        [0x8C, 0x04, 0x51, 0xE7]], [0x0000#16]) := by decide +kernel

/-- S7: MixColumns of the source's vector, row 3 included. -/
theorem test_mix :
    after (exec .mix (withMatrix #v[#v[0x63, 0x09, 0xCD, 0xBA], #v[0x53, 0x60, 0x70, 0xCA], #v[0xE0, 0xE1, 0xB7, 0xD0],
      #v[0x8C, 0x04, 0x51, 0xE7]])) matrixSeen =
      some ([[0x5F, 0x57, 0xF7, 0x1D], [0x72, 0xF5, 0xBE, 0xB9], [0x64, 0xBC, 0x3B, 0xF9],
        [0x15, 0x92, 0x29, 0x1A]], [0x0000#16]) := by decide +kernel

/-- S9 with the last byte as C1 resolves it (`02`). -/
theorem test_dbl :
    after (exec .dbl (holding [0xC0, 0x00, 0x00, 0x01, 0xC0, 0x01, 0x01, 0x01, 0xC0, 0x01, 0x01, 0x01, 0xC0, 0x01, 0x01, 0x01]))
      bufferSeen = some (16, [0x80, 0x00, 0x00, 0x03, 0x80, 0x02, 0x02, 0x03, 0x80, 0x02, 0x02, 0x03, 0x80, 0x02, 0x02, 0x02],
        [0x1001#16]) := by decide +kernel

/-- R141: `LEN` other than 16. -/
theorem test_dbl_error :
    after (exec .dbl (holding [1, 2, 3])) (·.responses) = some [0x4300#16] := by decide +kernel

/-- R142: carry 1. -/
theorem test_dblx :
    after (exec .dblx (holding [0xC0, 0x00, 0x00, 0x01, 0xC0, 0x01, 0x01, 0x01, 0xC0, 0x01, 0x01, 0x01, 0xC0, 0x01, 0x01, 0x01]))
      bufferSeen = some (16, [0x80, 0x00, 0x00, 0x03, 0x80, 0x02, 0x02, 0x03, 0x80, 0x02, 0x02, 0x03, 0x80, 0x02, 0x02, 0x85],
        [0x1001#16]) := by decide +kernel

/-- D-DBL: carry 0, and a carry across a byte boundary. -/
theorem test_dblx_no_carry :
    after (exec .dblx (holding (List.replicate 14 0 ++ [0x01, 0x80]))) bufferSeen =
      some (16, List.replicate 14 0 ++ [0x03, 0x00], [0x1000#16]) := by decide +kernel

/-! ### Witnesses: for each statement with hypotheses, a case that meets them -/

/-- A state with the table built. -/
def built : State := ensureSbox (holding [])

theorem test_witness_holding_tableOk (bs : List Byte) : TableOk (holding bs) := by
  intro h; simp [holding, State.reset] at h
theorem test_witness_built : TableOk built ∧ built.sbv = true :=
  ⟨ensureSbox_tableOk _ (test_witness_holding_tableOk []), ensureSbox_sbv _⟩

/-- Decoding statements (EncodeOfDecodeIsTheWord, DecodeAgreesWithTheOpcodeMap, DecodedOperandsAreTheFields): a word of each
format. -/
theorem test_witness_decoded :
    decode 0x40000000#32 = .ok .sub ∧ decode 0x03FFF000#32 = .ok (.rdb 0xFFF) ∧
      decode 0x11000FFF#32 = .ok (.gmul 0 0xFFF) ∧ decode 0x10000000#32 = .ok (.deg 0) ∧
      (Instr.rdb 0xFFF).row ∈ opcodeRows := by decide

/-- StepRunsTheDecodedCommand, EveryWordIsAnswered, ErrorsHaveExactlyTheListedCauses, ResponseFieldsAreAsLaidOut: a presented
word that is a command. -/
theorem test_witness_presented :
    Presents (presentFirst 0x020FF000#32 (holding [])) 0x020FF000#32 [] ∧
      decode 0x020FF000#32 = .ok (.push 0xFF) ∧ hasResult (.push 0xFF) = false := by
  refine ⟨rfl, by decide, rfl⟩

/-- IllegalWordChangesNothing, OneErrorIsReportedByPriority: a presented word that is none. -/
theorem test_witness_illegal :
    Presents (presentFirst 0x02100001#32 (holding [])) 0x02100001#32 [] ∧ wellFormed 0x02100001#32 = false := by
  refine ⟨rfl, by decide⟩

/-- IllegalWordChangesNothing: a word for each of its kinds, at the edge. -/
theorem test_witness_illegal_kinds :
    (0x04000000#32).toNat / 2 ^ 24 ∉ [0x01, 0x02, 0x03, 0x10, 0x11, 0x12, 0x13, 0x14, 0x15, 0x16, 0x20, 0x21, 0x22, 0x30,
      0x31, 0x40, 0x41, 0x42, 0x50, 0x51] ∧
      ((0x01000001#32).toNat / 2 ^ 24 ∈ [0x01, 0x13, 0x14, 0x15, 0x16, 0x21, 0x30, 0x31, 0x40, 0x41, 0x42, 0x50, 0x51] ∧
        (0x01000001#32).toNat % 2 ^ 24 ≠ 0) ∧
      ((0x02000800#32).toNat / 2 ^ 24 ∈ [0x02, 0x03, 0x12] ∧ (0x02000800#32).toNat % 2 ^ 12 ≠ 0) := by decide

/-- OneErrorIsReportedByPriority: an operand out of range on a full buffer. -/
theorem test_witness_priority :
    255 < (0x100 : Operand).toNat ∧ (holding (List.replicate 32 0)).len.val = 32 := by decide

/-- StepWaitsForTheHost and HostResetLeavesAResetState. -/
theorem test_witness_moves :
    (holding []).pending = [] ∧ ({ holding [] with pending := [.reset] } : State).pending = .reset :: [] :=
  ⟨rfl, rfl⟩

/-- ErrorsChangeNothing: a step that is answered with an error. -/
theorem test_witness_erring :
    ∃ t r, step (presentFirst 0x30000000#32 (holding [1])) = .next t ∧
      t.responses = (presentFirst 0x30000000#32 (holding [1])).responses ++ [r] ∧ rspErr r ≠ 0 :=
  ⟨_, _, rfl, rfl, by decide⟩

/-- OnlyTheListedCommandsWrite: commands that change each element. -/
theorem test_witness_writers :
    (after (exec .clr (holding [1])) fun t => decide (t.len.val ≠ 1)) = some true ∧
      (after (exec (.push 7) (holding [])) fun t => decide (t.buf[0] ≠ (holding []).buf[0])) = some true ∧
      (after (exec .shr (withMatrix #v[#v[0, 0, 0, 0], #v[1, 0, 0, 0], #v[0, 0, 0, 0], #v[0, 0, 0, 0]]))
        fun t => decide (cell t.s 1 0 ≠ 1)) = some true ∧
      (after (exec .ldwa { holding [9, 0, 0, 0] with wa := #v[0, 0, 0, 0] }) fun t => decide (t.wa[0] ≠ 0)) =
        some true ∧
      (after (exec .ldwb { holding [9, 0, 0, 0] with wb := #v[0, 0, 0, 0] }) fun t => decide (t.wb[0] ≠ 0)) =
        some true ∧
      (after (exec .sbgen (holding [])) fun t => t.sbv) = some true := by
  decide +kernel

/-- StaleBufferCellsAreNotObservable: another buffer that agrees below `LEN` only. -/
theorem test_witness_stale :
    (∀ (j : Nat) (h : j < 32), j < (holding [5]).len.val →
      ((holding [5]).buf.set 1 0xEE)[j] = (holding [5]).buf[j]) ∧
      ((holding [5]).buf.set 1 0xEE)[1] ≠ (holding [5]).buf[1] := by
  refine ⟨fun j h g => ?_, by decide +kernel⟩
  have : j = 0 := by simpa [holding] using g
  subst this; simp

/-- PushAppendsOneByte: the boundary operands and lengths of each clause. -/
theorem test_witness_push :
    ((0xFF : Operand).toNat ≤ 255 ∧ (holding (List.replicate 31 0)).len.val ≤ 31) ∧
      255 < (0x100 : Operand).toNat ∧
      ((0xFF : Operand).toNat ≤ 255 ∧ (holding (List.replicate 32 0)).len.val = 32) := by decide

/-- RdbReadsOneByte: the last index below `LEN`, and `LEN` itself. -/
theorem test_witness_rdb :
    (2 : Operand).toNat < (holding [1, 2, 3]).len.val ∧ (holding [1, 2, 3]).len.val ≤ (3 : Operand).toNat := by decide

/-- PushedBytesStandInOrder: two bytes presented after a `CLR`. -/
theorem test_witness_pushed :
    ([0xAA, 0xBB] : List Byte).length ≤ 32 ∧
      ({ holding [] with pending := [.command 0x01000000#32, .command 0x020AA000#32, .command 0x020BB000#32] } :
        State).pending =
        .command (encode .clr) ::
          (([0xAA, 0xBB] : List Byte).map fun b => HostMove.command (encode (.push (b.setWidth 12)))) ++ [] := by
  refine ⟨by decide, by decide⟩

/-- PushedBytesStandInOrder, the shortest list: a `CLR` and no byte. -/
theorem test_witness_pushed_none :
    ([] : List Byte).length ≤ 32 ∧
      ({ holding [7] with pending := [.command 0x01000000#32] } : State).pending =
        .command (encode .clr) ::
          (([] : List Byte).map fun b => HostMove.command (encode (.push (b.setWidth 12)))) ++ [] := by decide

/-- PushedBytesStandInOrder, the longest list: the bytes 0 to 31, their words built from the fields (`OP` 0x02, `A`). -/
theorem test_witness_pushed_full :
    ((List.range 32).map (BitVec.ofNat 8)).length = 32 ∧
      ({ holding [] with
          pending := .command 0x01000000#32 ::
            (List.range 32).map fun k => .command (BitVec.ofNat 32 (2 * 2 ^ 24 + k * 2 ^ 12)) } : State).pending =
        .command (encode .clr) ::
          (((List.range 32).map (BitVec.ofNat 8)).map fun b =>
            HostMove.command (encode (.push (b.setWidth 12)))) ++ [] := by decide +kernel

/-- DegAnswersTheHighestBit, GmulMultipliesFieldElements, GinvAnswersTheInverse, GinvIsTheUniqueInverse, FieldLawsHold:
operands at the edges of each clause. -/
theorem test_witness_field_operands :
    (0 : WideOperand) = 0 ∧ (0x800000 : WideOperand) ≠ 0 ∧ 0 < (1 : Nat) ∧
      ((255 : Operand).toNat ≤ 255 ∧ (0 : Operand).toNat ≤ 255) ∧ (255 < (256 : Operand).toNat) ∧
      (1 ≤ (1 : Operand).toNat ∧ (1 : Operand).toNat ≤ 255) ∧ (1 ≤ (255 : Operand).toNat) ∧
      (0 : Operand).toNat = 0 ∧ (1 : Byte) ≠ 0 := by decide

/-- XorsumIsAnUnorderedFold and XsumFoldsTheBuffer: a reordering, an empty buffer, one byte. -/
theorem test_witness_xsum :
    ([1, 2] : List Byte).Perm [2, 1] ∧ (holding []).len.val = 0 ∧ (holding [7]).len.val = 1 :=
  ⟨List.Perm.swap _ _ _, rfl, rfl⟩

/-- LoadWordCommandsCopyTheBuffer: four bytes, and not four. -/
theorem test_witness_word_length :
    (holding [1, 2, 3, 4]).len.val = 4 ∧ (holding [1, 2, 3]).len.val ≠ 4 ∧ (holding [1, 2, 3, 4, 5]).len.val ≠ 4 := by
  decide

/-- SboxvAnswersTheFunction and SbrdReadsTheTable: nibbles, and the first values that are none. -/
theorem test_witness_nibbles :
    ((15 : Operand).toNat ≤ 15 ∧ (0 : Operand).toNat ≤ 15) ∧ 15 < (16 : Operand).toNat := by decide

/-- TableInvariantIsKept, TableIsWrittenOnce: a step from a state with the table built. -/
theorem test_witness_table_step :
    TableOk built ∧ built.sbv = true ∧ ∃ t, step built = .next t :=
  ⟨test_witness_built.1, test_witness_built.2, by
    rcases step_cases built with ⟨_, h⟩ | ⟨w, rest, hp, _⟩ | ⟨rest, hp, _⟩
    · exact ⟨_, h⟩
    · simp [Presents, built, holding, State.reset] at hp
    · simp [built, holding, State.reset] at hp⟩

/-- TableIsHidden, SbrdAnswersLikeSboxv, SubAppliesTheSboxFunction: sound states that differ in the table only. -/
theorem test_witness_hidden :
    TableOk (holding []) ∧ TableOk { holding [] with sbox := built.sbox, sbv := true } ∧
      (holding []).sbv ≠ true := by
  refine ⟨test_witness_holding_tableOk [], fun _ x => ?_, by decide⟩
  exact test_witness_built.1 test_witness_built.2 x

/-- LdstLoadsByColumns, CodecRoundTrips, DblShiftsTheBlock, DblxDoublesWithTheConstant: sixteen bytes, and not sixteen; a
block with and without its top bit set. -/
theorem test_witness_block_length :
    (holding (List.replicate 16 0)).len.val = 16 ∧ (holding (List.replicate 15 0)).len.val ≠ 16 ∧
      (holding (List.replicate 17 0)).len.val ≠ 16 ∧
      (holding (List.replicate 16 0)).buf[0].getLsbD 7 = false ∧
      (holding (List.replicate 16 0x80)).buf[0].getLsbD 7 = true := by decide +kernel

/-- MixMultipliesEveryColumn: a column of four equal bytes. -/
theorem test_witness_constant_column :
    ∀ r : Fin 4, cell (withMatrix #v[#v[0xC6, 0, 0, 0], #v[0xC6, 1, 0, 0], #v[0xC6, 0, 0, 0], #v[0xC6, 0, 0, 0]]).s r 0 =
      cell (withMatrix #v[#v[0xC6, 0, 0, 0], #v[0xC6, 1, 0, 0], #v[0xC6, 0, 0, 0], #v[0xC6, 0, 0, 0]]).s 0 0 := by
  decide

/-- RoundTransformsActOnTheMatrixOnly, ReadsAreIdempotent: the commands named. -/
theorem test_witness_named :
    ((Instr.sub = .sub ∨ Instr.sub = .shr ∨ Instr.sub = .mix) ∧ Instr.shr ≠ .sub) ∧ ∃ k, Instr.rdb 3 = .rdb k :=
  ⟨⟨.inl rfl, by decide⟩, 3, rfl⟩

/-- RoundTransformsActOnTheMatrixOnly: `SUB` with the table as it is, `SHR` with the built table in place of the unbuilt. -/
theorem test_witness_transform_table :
    (Instr.sub = .sub → (holding []).sbox = (holding []).sbox ∧ (holding []).sbv = (holding []).sbv) ∧
      (Instr.shr = .sub → built.sbox = (holding []).sbox ∧ built.sbv = (holding []).sbv) ∧
      built.sbv ≠ (holding []).sbv :=
  ⟨fun _ => ⟨rfl, rfl⟩, by decide, by rw [test_witness_built.2]; decide⟩

end Sys2Proof.Tests
end

/-! ## The state (spec/10_state.md): what a command sees, what it writes

A command is decided by what it can see of the state (`visible`): the bytes below `LEN`, the registers, and the table as
`EnsureSbox()` leaves it. What it writes (`writesOf`) is a list of new contents, laid over the state it runs in. The lemma
`exec_decided_by_visible` ties both to `exec`; the statements about what commands read and write follow from it. -/
namespace Sys2Proof.Machine

/-! ### States, field by field -/

/-- Two states with the same cells and the same other fields are the same state. -/
theorem state_ext {s t : State} (buf : ∀ (j : Nat) (h : j < 32), s.buf[j] = t.buf[j]) (len : s.len = t.len)
    (matrix : s.s = t.s) (wa : s.wa = t.wa) (wb : s.wb = t.wb) (sbox : s.sbox = t.sbox) (sbv : s.sbv = t.sbv)
    (pending : s.pending = t.pending) (responses : s.responses = t.responses) (resets : s.resets = t.resets) :
    s = t := by
  have hbuf : s.buf = t.buf := Vector.ext buf
  cases s; cases t; simp_all

/-! ### What a command can see -/

/-- What a command can see of `s`: a buffer cell at or above `LEN` reads 0 (R21), the table is the one `EnsureSbox()`
leaves with `SBV` 1 (R29, R112), and the host's side is blank (R25, R26). -/
def visible (s : State) : State :=
  { ensureSbox s with
    buf := Vector.ofFn fun j => if j.val < s.len.val then s.buf[j.val] else 0
    pending := []
    responses := []
    resets := 0 }

section Visible
variable (s : State)

@[simp] theorem visible_len : (visible s).len = s.len := by simp only [visible, ensureSbox_len]
@[simp] theorem visible_s : (visible s).s = s.s := by simp only [visible, ensureSbox_s]
@[simp] theorem visible_wa : (visible s).wa = s.wa := by simp only [visible, ensureSbox_wa]
@[simp] theorem visible_wb : (visible s).wb = s.wb := by simp only [visible, ensureSbox_wb]
@[simp] theorem visible_sbox : (visible s).sbox = (ensureSbox s).sbox := by simp only [visible]
@[simp] theorem visible_sbv : (visible s).sbv = true := by simp only [visible, ensureSbox_sbv]
@[simp] theorem visible_pending : (visible s).pending = [] := by simp only [visible]
@[simp] theorem visible_responses : (visible s).responses = [] := by simp only [visible]
@[simp] theorem visible_resets : (visible s).resets = 0 := by simp only [visible]
@[simp] theorem visible_buf (j : Nat) (h : j < 32) :
    (visible s).buf[j] = if j < s.len.val then s.buf[j] else 0 := by simp [visible]

@[simp] theorem entry_visible (x : Byte) : entry (visible s) x = entry (ensureSbox s) x := by
  simp only [entry, visible_sbox]

@[simp] theorem bufBytes_visible : bufBytes (visible s) = bufBytes s := by
  refine List.ext_getElem (by simp [bufBytes]) fun j h _ => ?_
  have hj : j < s.len.val := by simp [bufBytes] at h; omega
  simp [bufBytes, hj]

theorem bufWord_visible (h : s.len.val = 4) : bufWord (visible s) = bufWord s :=
  Vector.ext fun j hj => by simp [h, hj]

theorem bufBlock_visible (h : s.len.val = 16) : bufBlock (visible s) = bufBlock s :=
  Vector.ext fun j hj => by simp [h, hj]

@[simp] theorem substituteBytes_visible : substituteBytes (visible s) = substituteBytes (ensureSbox s) :=
  matrix_ext _ _ fun r c => by simp

end Visible

/-- The host's side is not visible. -/
theorem visible_of_host (s : State) (p : List HostMove) (rs : List Rsp) (n : Nat) :
    visible { s with pending := p, responses := rs, resets := n } = visible s := by
  apply state_ext <;> simp

/-- Cells at and above `LEN` are not visible. -/
theorem visible_of_stale (s : State) (b : Vector Byte 32)
    (h : ∀ (j : Nat) (_ : j < 32), j < s.len.val → b[j] = s.buf[j]) : visible { s with buf := b } = visible s := by
  apply state_ext
  case buf =>
    intro j hj
    simp only [visible_buf]
    split
    next hl => exact h j hj hl
    next => rfl
  all_goals simp

/-- In a sound state `EnsureSbox()` leaves the finished table, built before or now. -/
theorem ensureSbox_sbox_of_tableOk (s : State) (h : TableOk s) : (ensureSbox s).sbox = sboxTable := by
  refine Vector.ext fun j hj => ?_
  have hx : (BitVec.ofNat 8 j).toNat = j := by simp; omega
  have hs := ensureSbox_tableOk s h (ensureSbox_sbv s) (BitVec.ofNat 8 j)
  have ht := sboxTable_get (BitVec.ofNat 8 j)
  simp only [entry, hx] at hs ht
  rw [hs, ht]

/-- Sound tables are not told apart. -/
theorem visible_of_table (s : State) (box : Vector Byte 256) (v : Bool) (h : TableOk s)
    (h' : TableOk { s with sbox := box, sbv := v }) : visible { s with sbox := box, sbv := v } = visible s := by
  apply state_ext
  case sbox => rw [visible_sbox, visible_sbox, ensureSbox_sbox_of_tableOk _ h, ensureSbox_sbox_of_tableOk _ h']
  all_goals simp

/-! ### What a command writes -/

/-- New contents for some elements of the state; `none` keeps what is there, `table` asks for `EnsureSbox()`. -/
structure Writes where
  len : Option (Fin 33) := none
  cells : Nat → Option Byte := fun _ => none
  matrix : Option StateMatrix := none
  wa : Option FieldWord := none
  wb : Option FieldWord := none
  table : Bool := false

/-- The state `s` with the new contents laid over it. -/
def Writes.apply (w : Writes) (s : State) : State :=
  { s with
    buf := Vector.ofFn fun j => (w.cells j.val).getD s.buf[j.val]
    len := w.len.getD s.len
    s := w.matrix.getD s.s
    wa := w.wa.getD s.wa
    wb := w.wb.getD s.wb
    sbox := if w.table then (ensureSbox s).sbox else s.sbox
    sbv := s.sbv || w.table }

section Apply
variable (w : Writes) (s : State)

@[simp] theorem Writes.apply_buf (j : Nat) (h : j < 32) : (w.apply s).buf[j] = (w.cells j).getD s.buf[j] := by
  simp [Writes.apply]
@[simp] theorem Writes.apply_len : (w.apply s).len = w.len.getD s.len := by unfold Writes.apply; rfl
@[simp] theorem Writes.apply_s : (w.apply s).s = w.matrix.getD s.s := by unfold Writes.apply; rfl
@[simp] theorem Writes.apply_wa : (w.apply s).wa = w.wa.getD s.wa := by unfold Writes.apply; rfl
@[simp] theorem Writes.apply_wb : (w.apply s).wb = w.wb.getD s.wb := by unfold Writes.apply; rfl
@[simp] theorem Writes.apply_sbox : (w.apply s).sbox = if w.table then (ensureSbox s).sbox else s.sbox := by
  unfold Writes.apply; rfl
@[simp] theorem Writes.apply_sbv : (w.apply s).sbv = (s.sbv || w.table) := by unfold Writes.apply; rfl
@[simp] theorem Writes.apply_pending : (w.apply s).pending = s.pending := by unfold Writes.apply; rfl
@[simp] theorem Writes.apply_responses : (w.apply s).responses = s.responses := by unfold Writes.apply; rfl
@[simp] theorem Writes.apply_resets : (w.apply s).resets = s.resets := by unfold Writes.apply; rfl

theorem Writes.apply_keepsTable (h : w.table = false) : KeepsTable s (w.apply s) := by simp [KeepsTable, h]

theorem Writes.apply_ensuresTable (h : w.table = true) : KeepsTable (ensureSbox s) (w.apply s) := by
  simp [KeepsTable, h]

end Apply

/-- What the command `i` writes when it succeeds and sees `v`. -/
def writesOf (i : Instr) (v : State) : Writes :=
  match i with
  | .clr => { len := some 0 }
  | .push b => { len := some (v.len + 1), cells := fun j => if j = v.len.val then some (lowByte b) else none }
  | .ldwa => { wa := some (bufWord v) }
  | .ldwb => { wb := some (bufWord v) }
  | .wmul => { len := some 4, cells := fun j => (wmul v.wa v.wb)[j]? }
  | .sbgen => { table := true }
  | .sbrd _ _ => { table := true }
  | .ldst => { matrix := some (loadState (bufBlock v)) }
  | .rdst => { len := some 16, cells := fun j => (readState v.s)[j]? }
  | .sub => { matrix := some (substituteBytes v), table := true }
  | .shr => { matrix := some (shiftRows v.s) }
  | .mix => { matrix := some (mixColumns v.s) }
  | .dbl => { cells := fun j => (dbl (bufBlock v)).1[j]? }
  | .dblx => { cells := fun j => (xorOnCarry (dbl (bufBlock v)).1 (dbl (bufBlock v)).2)[j]? }
  | .rdb _ | .deg _ | .gmul _ _ | .ginv _ | .xsum | .sboxv _ _ => {}

/-- The value the command `i` answers with when it succeeds and sees `v` (R64). -/
def valueOf (i : Instr) (v : State) : Byte :=
  match i with
  | .rdb k => v.buf[k.toNat]?.getD 0
  | .deg x => BitVec.ofInt 8 (degree x.toNat)
  | .gmul a b => gmul (lowByte a) (lowByte b)
  | .ginv a => (ginv (lowByte a)).getD 0
  | .xsum => xorsum (bufBytes v)
  | .sboxv h l => sboxvalue (lowNibble h) (lowNibble l)
  | .sbrd h l => entry v (composeByte (lowNibble h) (lowNibble l))
  | .dbl | .dblx => byteOfBool (dbl (bufBlock v)).2
  | .clr | .push _ | .ldwa | .ldwb | .wmul | .sbgen | .ldst | .rdst | .sub | .shr | .mix => 0

/-- No write at all. -/
theorem Writes.apply_empty (s : State) : s = ({} : Writes).apply s := by apply state_ext <;> simp

/-! ### Each update of the model as a write -/

theorem setLen_eq_apply (n : Fin 33) (s : State) :
    ({ s with len := n } : State) = ({ len := some n } : Writes).apply s := by apply state_ext <;> simp

theorem setMatrix_eq_apply (m : StateMatrix) (s : State) :
    ({ s with s := m } : State) = ({ matrix := some m } : Writes).apply s := by apply state_ext <;> simp

theorem setWa_eq_apply (w : FieldWord) (s : State) :
    ({ s with wa := w } : State) = ({ wa := some w } : Writes).apply s := by apply state_ext <;> simp

theorem setWb_eq_apply (w : FieldWord) (s : State) :
    ({ s with wb := w } : State) = ({ wb := some w } : Writes).apply s := by apply state_ext <;> simp

/-- Reading a vector where it has a cell, and `x` elsewhere. -/
theorem getElem?_getD_eq_dite {n : Nat} (b : Vector Byte n) (j : Nat) (x : Byte) :
    b[j]?.getD x = if h : j < n then b[j] else x := by
  by_cases h : j < n <;> simp [h]

/-- `BUF[0..15] <- b` as a write. -/
theorem writeBlock_eq_apply (b : Block) (s : State) :
    writeBlock b s = ({ cells := fun j => b[j]? } : Writes).apply s := by
  apply state_ext <;> simp [getElem?_getD_eq_dite]

/-- `BUF[0..15] <- b`, `LEN <- 16` as a write. -/
theorem storeBlock_eq_apply (b : Block) (s : State) :
    storeBlock b s = ({ len := some 16, cells := fun j => b[j]? } : Writes).apply s := by
  apply state_ext <;> simp [getElem?_getD_eq_dite]

/-- `BUF[0..3] <- w`, `LEN <- 4` as a write. -/
theorem storeWord_eq_apply (w : FieldWord) (s : State) :
    storeWord w s = ({ len := some 4, cells := fun j => w[j]? } : Writes).apply s := by
  apply state_ext <;> simp [getElem?_getD_eq_dite]

/-- `EnsureSbox()` as a write. -/
theorem ensureSbox_eq_apply (s : State) : ensureSbox s = ({ table := true } : Writes).apply s := by
  apply state_ext <;> simp

/-- One byte appended, as a write (R82). -/
theorem append_eq_apply (b : Byte) (s : State) (h : s.len.val < 32) :
    ({ s with buf := s.buf.set s.len.val b h, len := ⟨s.len.val + 1, by omega⟩ } : State) =
      ({ len := some (s.len + 1), cells := fun j => if j = s.len.val then some b else none } : Writes).apply s := by
  apply state_ext
  case buf =>
    intro j hj
    by_cases hj' : j = s.len.val
    · subst hj'; simp
    · simp [hj', Vector.getElem_set_ne _ _ (Ne.symm hj')]
  case len => exact Fin.ext (by simp [Fin.val_add]; omega)
  all_goals simp

/-- A new matrix after `EnsureSbox()`, as a write (R130). -/
theorem ensureSbox_matrix_eq_apply (m : StateMatrix) (s : State) :
    ({ ensureSbox s with s := m } : State) = ({ matrix := some m, table := true } : Writes).apply s := by
  apply state_ext <;> simp

/-! ### A command is decided by what it sees -/

/-- All states that look like `v` have one outcome under `i`: one exception, or one answer and one set of writes. -/
def Decided (i : Instr) (v : State) : Prop :=
  (∃ e, ∀ s, visible s = v → exec i s = raise e s) ∨
    ∀ s, visible s = v → exec i s = answer (valueOf i v) ((writesOf i v).apply s)

theorem decided_of_raise {i : Instr} {v : State} (e : Err) (h : ∀ s, visible s = v → exec i s = raise e s) :
    Decided i v := .inl ⟨e, h⟩

theorem decided_of_answer {i : Instr} {v : State}
    (h : ∀ s, visible s = v → exec i s = answer (valueOf i (visible s)) ((writesOf i (visible s)).apply s)) :
    Decided i v :=
  .inr fun s hs => hs ▸ h s hs

/-- A command that checks only the length is decided by it. -/
theorem decided_of_len {i : Instr} {v : State} (n : Nat)
    (hr : ∀ s, s.len.val ≠ n → exec i s = raise .invalidLength s)
    (ha : ∀ s, s.len.val = n → exec i s = answer (valueOf i (visible s)) ((writesOf i (visible s)).apply s)) :
    Decided i v := by
  by_cases h : v.len.val = n
  · exact decided_of_answer fun s hs => ha s (by rw [← visible_len, hs, h])
  · exact decided_of_raise .invalidLength fun s hs => hr s (by rwa [← visible_len, hs])

/-- What a command sees decides whether it errs and how, its value and what it writes. -/
theorem exec_decided_by_visible (i : Instr) (v : State) : Decided i v := by
  cases i with
  | clr => exact decided_of_answer fun s _ => by rw [exec_clr, valueOf, writesOf, setLen_eq_apply]
  | push b =>
    by_cases hb : b.toNat ≤ 255
    · by_cases hl : v.len.val < 32
      · refine decided_of_answer fun s hs => ?_
        have hl' : s.len.val < 32 := by rwa [← visible_len, hs]
        rw [exec_push_of_room b s hb hl', append_eq_apply, valueOf, writesOf, visible_len]
      · have := v.len.isLt
        exact decided_of_raise _ fun s hs => exec_push_of_full b s hb (by rw [← visible_len, hs]; omega)
    · exact decided_of_raise _ fun s _ => exec_push_of_not_byte b s (by omega)
  | rdb k =>
    by_cases hk : k.toNat < v.len.val
    · refine decided_of_answer fun s hs => ?_
      have hs' : k.toNat < s.len.val := by rwa [← visible_len, hs]
      have hk' : k.toNat < 32 := by omega
      rw [exec_rdb_of_lt k s hs', writesOf, ← Writes.apply_empty]
      simp [valueOf, hs', hk']
    · exact decided_of_raise _ fun s hs => exec_rdb_of_ge k s (by rw [← visible_len, hs]; omega)
  | deg x => exact decided_of_answer fun s _ => by rw [exec_deg, valueOf, writesOf, ← Writes.apply_empty]
  | gmul a b =>
    by_cases h : 255 < a.toNat ∨ 255 < b.toNat
    · exact decided_of_raise _ fun s _ => exec_gmul_of_not_bytes a b s h
    · refine decided_of_answer fun s _ => ?_
      rw [exec_gmul_of_bytes a b s (by omega) (by omega), valueOf, writesOf, ← Writes.apply_empty]
  | ginv a =>
    by_cases ha : a.toNat ≤ 255
    · cases hg : ginv (lowByte a) with
      | none => exact decided_of_raise _ fun s _ => exec_ginv_of_none a s hg
      | some g =>
        refine decided_of_answer fun s _ => ?_
        rw [exec_ginv_of_some a s ha g hg, valueOf, writesOf, hg, ← Writes.apply_empty, Option.getD_some]
    · exact decided_of_raise _ fun s _ => exec_ginv_of_not_byte a s (by omega)
  | xsum =>
    exact decided_of_answer fun s _ => by
      rw [exec_xsum, valueOf, writesOf, ← Writes.apply_empty, bufBytes_visible]
  | ldwa =>
    exact decided_of_len 4 exec_ldwa_of_not_word fun s h => by
      rw [exec_ldwa_of_word s h, valueOf, writesOf, bufWord_visible s h, setWa_eq_apply]
  | ldwb =>
    exact decided_of_len 4 exec_ldwb_of_not_word fun s h => by
      rw [exec_ldwb_of_word s h, valueOf, writesOf, bufWord_visible s h, setWb_eq_apply]
  | wmul =>
    exact decided_of_answer fun s _ => by
      rw [exec_wmul, valueOf, writesOf, storeWord_eq_apply, visible_wa, visible_wb]
  | sboxv h l =>
    by_cases g : 15 < h.toNat ∨ 15 < l.toNat
    · exact decided_of_raise _ fun s _ => exec_sboxv_of_not_nibbles h l s g
    · refine decided_of_answer fun s _ => ?_
      rw [exec_sboxv_of_nibbles h l s (by omega) (by omega), valueOf, writesOf, ← Writes.apply_empty]
  | sbgen => exact decided_of_answer fun s _ => by rw [exec_sbgen, valueOf, writesOf, ensureSbox_eq_apply]
  | sbrd h l =>
    by_cases g : 15 < h.toNat ∨ 15 < l.toNat
    · exact decided_of_raise _ fun s _ => exec_sbrd_of_not_nibbles h l s g
    · refine decided_of_answer fun s _ => ?_
      rw [exec_sbrd_of_nibbles h l s (by omega) (by omega), valueOf, writesOf, entry_visible, ← ensureSbox_eq_apply]
  | ldst =>
    exact decided_of_len 16 exec_ldst_of_not_block fun s h => by
      rw [exec_ldst_of_block s h, valueOf, writesOf, bufBlock_visible s h, setMatrix_eq_apply]
  | rdst =>
    exact decided_of_answer fun s _ => by rw [exec_rdst, valueOf, writesOf, storeBlock_eq_apply, visible_s]
  | sub =>
    exact decided_of_answer fun s _ => by
      rw [exec_sub, valueOf, writesOf, ensureSbox_matrix_eq_apply, substituteBytes_visible]
  | shr => exact decided_of_answer fun s _ => by rw [exec_shr, valueOf, writesOf, visible_s, setMatrix_eq_apply]
  | mix => exact decided_of_answer fun s _ => by rw [exec_mix, valueOf, writesOf, visible_s, setMatrix_eq_apply]
  | dbl =>
    exact decided_of_len 16 exec_dbl_of_not_block fun s h => by
      rw [exec_dbl_of_block s h, valueOf, writesOf, bufBlock_visible s h, writeBlock_eq_apply]
  | dblx =>
    exact decided_of_len 16 exec_dblx_of_not_block fun s h => by
      rw [exec_dblx_of_block s h, valueOf, writesOf, bufBlock_visible s h, writeBlock_eq_apply]

/-- What one command can do: raise an exception, or answer with what it writes laid over the state. -/
theorem exec_cases (i : Instr) (s : State) :
    (∃ e, exec i s = raise e s) ∨
      exec i s = answer (valueOf i (visible s)) ((writesOf i (visible s)).apply s) :=
  (exec_decided_by_visible i (visible s)).imp (fun ⟨e, h⟩ => ⟨e, h s rfl⟩) fun h => h s rfl

/-- In two states that look the same a command does the same: both raise one exception, or both answer with one value
and one set of writes. -/
theorem exec_alike (i : Instr) {s s' : State} (h : visible s' = visible s) :
    (∃ e, exec i s = raise e s ∧ exec i s' = raise e s') ∨
      ∃ v, exec i s = answer v ((writesOf i (visible s)).apply s) ∧
        exec i s' = answer v ((writesOf i (visible s)).apply s') :=
  (exec_decided_by_visible i (visible s)).imp (fun ⟨e, he⟩ => ⟨e, he s rfl, he s' h⟩)
    fun hv => ⟨_, hv s rfl, hv s' h⟩

/-! ### What is read (O16, O18) -/

/-- A write leaves the host's side alone. -/
theorem Writes.apply_of_host (w : Writes) (s : State) (p : List HostMove) (rs : List Rsp) (n : Nat) :
    w.apply { s with pending := p, responses := rs, resets := n } =
      { w.apply s with pending := p, responses := rs, resets := n } := by
  apply state_ext <;> simp

/-- Settles O16: the host's side is not visible, and no write touches it. -/
theorem commandsDoNotReadTheHostSide : Obligations.CommandsDoNotReadTheHostSide := by
  unfold Obligations.CommandsDoNotReadTheHostSide
  intro i s p rs n
  rcases exec_alike i (visible_of_host s p rs n) with ⟨e, h, h'⟩ | ⟨v, h, h'⟩
  · rw [h, h', raise_eq, raise_eq]
    exact ⟨s, packRsp e s.len 0, rfl, ⟨rfl, rfl⟩, rfl⟩
  · rw [h, h', answer_eq, answer_eq, Writes.apply_of_host _ s p rs n, Writes.apply_responses]
    exact ⟨_, _, rfl, ⟨Writes.apply_pending _ _, Writes.apply_resets _ _⟩, rfl⟩

/-- A command that makes the buffer longer writes every cell it adds. -/
theorem writesOf_fills (i : Instr) (v : State) (j : Nat) (h : j < ((writesOf i v).len.getD v.len).val) :
    j < v.len.val ∨ ((writesOf i v).cells j).isSome := by
  cases i with
  | push b =>
    have : j < (v.len.val + 1) % 33 := by simpa [writesOf, Fin.val_add] using h
    by_cases hj : j = v.len.val
    · exact .inr (by simp [writesOf, hj])
    · exact .inl (by have := Nat.mod_le (v.len.val + 1) 33; omega)
  | wmul =>
    have : j < 4 := h
    exact .inr (by simp [writesOf, this])
  | rdst =>
    have : j < 16 := h
    exact .inr (by simp [writesOf, this])
  | clr => exact absurd h (Nat.not_lt_zero j)
  | _ => exact .inl h

/-- Settles O18: stale cells are not visible, and a cell that comes to lie below `LEN` is written at that moment. -/
theorem staleBufferCellsAreNotObservable : Obligations.StaleBufferCellsAreNotObservable := by
  unfold Obligations.StaleBufferCellsAreNotObservable
  intro i s b hb
  rcases exec_alike i (visible_of_stale s b hb) with ⟨e, h, h'⟩ | ⟨v, h, h'⟩
  · rw [h, h', raise_eq, raise_eq]
    exact ⟨raised e s, b, rfl, by simp only [raised], hb⟩
  · rw [h, h', answer_eq, answer_eq]
    refine ⟨_, ((writesOf i (visible s)).apply { s with buf := b }).buf, rfl, by simp, fun j hj hjl => ?_⟩
    rw [Writes.apply_buf, Writes.apply_buf]
    rcases writesOf_fills i (visible s) j (by simpa using hjl) with hl | hw
    · rw [hb j hj (by simpa using hl)]
    · obtain ⟨x, hx⟩ := Option.isSome_iff_exists.1 hw
      rw [hx, Option.getD_some, Option.getD_some]

/-! ### What is written (O17) -/

/-- A command that ends in `t` has written nothing or what it writes on success, and has given one response. -/
theorem exec_next {i : Instr} {s t : State} (h : exec i s = .next t) :
    ∃ w r, (w = {} ∨ w = writesOf i (visible s)) ∧ t = { w.apply s with responses := s.responses ++ [r] } := by
  rcases exec_cases i s with ⟨e, he⟩ | ha
  · rw [he, raise_eq_next_iff] at h
    exact ⟨{}, _, .inl rfl, by rw [h, raised, ← Writes.apply_empty]⟩
  · rw [ha, answer_eq_next_iff, Writes.apply_responses] at h
    exact ⟨_, _, .inr rfl, h⟩

section Footprint
variable {i : Instr} {v : State}

theorem writesOf_len (h : (writesOf i v).len ≠ none) : i = .clr ∨ (∃ b, i = .push b) ∨ i = .rdst ∨ i = .wmul := by
  cases i <;> simp_all [writesOf]

theorem writesOf_cells (h : (writesOf i v).cells ≠ fun _ => none) :
    (∃ b, i = .push b) ∨ i = .rdst ∨ i = .wmul ∨ i = .dbl ∨ i = .dblx := by
  cases i <;> simp_all [writesOf]

theorem writesOf_matrix (h : (writesOf i v).matrix ≠ none) : i = .ldst ∨ i = .sub ∨ i = .shr ∨ i = .mix := by
  cases i <;> simp_all [writesOf]

theorem writesOf_wa (h : (writesOf i v).wa ≠ none) : i = .ldwa := by cases i <;> simp_all [writesOf]

theorem writesOf_wb (h : (writesOf i v).wb ≠ none) : i = .ldwb := by cases i <;> simp_all [writesOf]

theorem writesOf_table (h : (writesOf i v).table ≠ false) : i = .sbgen ∨ (∃ h l, i = .sbrd h l) ∨ i = .sub := by
  cases i <;> simp_all [writesOf]

end Footprint

/-- Settles O17: an element that changed is one that the command's writes name. -/
theorem onlyTheListedCommandsWrite : Obligations.OnlyTheListedCommandsWrite := by
  unfold Obligations.OnlyTheListedCommandsWrite
  intro i s t h
  obtain ⟨w, r, rfl | rfl, rfl⟩ := exec_next h
  · simp [← Writes.apply_empty, KeepsTable, KeepsHostSide]
  · refine ⟨fun hne => writesOf_len (v := visible s) fun hn => hne ?_,
      fun hne => writesOf_cells (v := visible s) fun hn => hne ?_,
      fun hne => writesOf_matrix (v := visible s) fun hn => hne ?_,
      fun hne => writesOf_wa (v := visible s) fun hn => hne ?_,
      fun hne => writesOf_wb (v := visible s) fun hn => hne ?_,
      fun hne => writesOf_table (v := visible s) fun hn => hne ?_, ?_⟩
    · simp [hn]
    · exact Vector.ext fun j hj => by simp [hn]
    · simp [hn]
    · simp [hn]
    · simp [hn]
    · simpa only [KeepsTable] using Writes.apply_keepsTable _ s hn
    · simp [KeepsHostSide]

/-! ### The S-box table along a step (O41, O42, O43) -/

/-- A command leaves the table as it was, or as `EnsureSbox()` leaves it. -/
theorem exec_table {i : Instr} {s t : State} (h : exec i s = .next t) :
    KeepsTable s t ∨ KeepsTable (ensureSbox s) t := by
  obtain ⟨w, r, -, ht⟩ := exec_next h
  cases hw : w.table with
  | false => exact .inl (by simpa only [ht, KeepsTable] using w.apply_keepsTable s hw)
  | true => exact .inr (by simpa only [ht, KeepsTable] using w.apply_ensuresTable s hw)

/-- So does any presented word. -/
theorem runCommand_table {w : Cmd} {s t : State} (h : runCommand w s = .next t) :
    KeepsTable s t ∨ KeepsTable (ensureSbox s) t := by
  cases hd : decode w with
  | error e =>
    rw [runCommand_of_error w e hd, raise_eq_next_iff] at h
    exact .inl (by simp only [h, raised, KeepsTable, and_self])
  | ok i =>
    rw [runCommand_of_ok w i hd] at h
    exact exec_table h

/-- What a step can do to the table: keep it, ensure it, or clear `SBV` because the host asserted reset. -/
theorem step_table {s t : State} (h : step s = .next t) :
    KeepsTable s t ∨ KeepsTable (ensureSbox s) t ∨ ((∃ rest, s.pending = .reset :: rest) ∧ t.sbv = false) := by
  rcases step_cases s with ⟨-, hs⟩ | ⟨w, rest, -, hs⟩ | ⟨rest, hp, hs⟩
  · obtain rfl := Host.Outcome.next.inj (hs.symm.trans h)
    exact .inl ⟨rfl, rfl⟩
  · rcases runCommand_table (hs.symm.trans h) with hk | he
    · exact .inl hk
    · simp only [KeepsTable, ensureSbox_sbox, ensureSbox_sbv] at he ⊢
      exact .inr (.inl he)
  · have ht := Host.Outcome.next.inj ((hostReset_eq _).symm.trans (hs.symm.trans h))
    exact .inr (.inr ⟨⟨rest, hp⟩, by rw [← ht, afterReset_sbv]⟩)

theorem tableOk_of_keepsTable {s t : State} (h : KeepsTable s t) (hs : TableOk s) : TableOk t := by
  obtain ⟨hbox, hsbv⟩ := h
  intro ht x
  simp only [entry, hbox]
  exact hs (hsbv ▸ ht) x

theorem tableOk_of_unbuilt {s : State} (h : s.sbv = false) : TableOk s := fun hb => by simp [h] at hb

/-- Settles O41: a step keeps the table, ends with it ensured, or ends with it not built. -/
theorem tableInvariantIsKept : Obligations.TableInvariantIsKept := by
  unfold Obligations.TableInvariantIsKept
  intro s t hs h
  rcases step_table h with hk | he | ⟨-, hr⟩
  · exact tableOk_of_keepsTable hk hs
  · exact tableOk_of_keepsTable he (ensureSbox_tableOk s hs)
  · exact tableOk_of_unbuilt hr

/-- Settles O42: after reset the table is not built. -/
theorem tableInvariantHoldsAtReset : Obligations.TableInvariantHoldsAtReset :=
  tableOk_of_unbuilt (afterReset_sbv 0 [] [])

/-- Settles O43: with the table built, `EnsureSbox()` does nothing. -/
theorem tableIsWrittenOnce : Obligations.TableIsWrittenOnce := by
  unfold Obligations.TableIsWrittenOnce
  intro s t hb h
  have of_keepsTable : KeepsTable s t → t.sbv = true ∧ t.sbox = s.sbox :=
    fun ⟨hbox, hsbv⟩ => ⟨hsbv.trans hb, hbox⟩
  rcases step_table h with hk | he | ⟨hr, -⟩
  · exact .inl (of_keepsTable hk)
  · rw [ensureSbox_of_built s hb] at he
    exact .inl (of_keepsTable he)
  · exact .inr hr

/-- Settles O10: the two reset values of R31. -/
theorem resetStateIsEmptyAndUnbuilt : Obligations.ResetStateIsEmptyAndUnbuilt :=
  ⟨afterReset_len 0 [] [], afterReset_sbv 0 [] []⟩

/-! ### One step and a run, by the host's next move -/

theorem step_of_waiting {s : State} (h : s.pending = []) : step s = .next s := by simp only [step, takeMove, h]

theorem step_of_command {s : State} {w : Cmd} {rest : List HostMove} (h : s.pending = .command w :: rest) :
    step s = runCommand w { s with pending := rest } := by simp only [step, takeMove, h]

theorem step_of_reset {s : State} {rest : List HostMove} (h : s.pending = .reset :: rest) :
    step s = hostReset { s with pending := rest } := by simp only [step, takeMove, h]

theorem core_run_succ {s t : State} (n : Nat) (h : step s = .next t) : core.run (n + 1) s = core.run n t := by
  simp only [Host.Core.run, core, h]

/-! ### The table is hidden (O44) -/

/-- `s` with another table in place of its own. -/
def withTable (box : Vector Byte 256) (v : Bool) (s : State) : State := { s with sbox := box, sbv := v }

/-- `r'` is `r` but for the table of the state it ends in. -/
def SameButTable (r r' : Result) : Prop := ∃ t box v, r = .next t ∧ r' = .next (withTable box v t)

theorem sameButTable_raise (e : Err) (s : State) (box : Vector Byte 256) (v : Bool) :
    SameButTable (raise e s) (raise e (withTable box v s)) :=
  ⟨raised e s, box, v, raise_eq e s, raise_eq e (withTable box v s)⟩

theorem sameButTable_answer (x : Byte) (w : Writes) (s : State) (box : Vector Byte 256) (v : Bool) :
    SameButTable (answer x (w.apply s)) (answer x (w.apply (withTable box v s))) := by
  refine ⟨_, (w.apply (withTable box v s)).sbox, (w.apply (withTable box v s)).sbv, answer_eq _ _, ?_⟩
  rw [answer_eq]
  exact congrArg Host.Outcome.next (by apply state_ext <;> simp [withTable])

theorem sameButTable_exec (i : Instr) {s : State} {box : Vector Byte 256} {v : Bool} (h : TableOk s)
    (h' : TableOk (withTable box v s)) : SameButTable (exec i s) (exec i (withTable box v s)) := by
  rcases exec_alike i (visible_of_table s box v h h') with ⟨e, he, he'⟩ | ⟨x, hx, hx'⟩
  · rw [he, withTable, he']
    exact sameButTable_raise e s box v
  · rw [hx, withTable, hx']
    exact sameButTable_answer x _ s box v

theorem sameButTable_runCommand (w : Cmd) {s : State} {box : Vector Byte 256} {v : Bool} (h : TableOk s)
    (h' : TableOk (withTable box v s)) : SameButTable (runCommand w s) (runCommand w (withTable box v s)) := by
  cases hd : decode w with
  | error e =>
    rw [runCommand_of_error w e hd, runCommand_of_error w e hd]
    exact sameButTable_raise _ s box v
  | ok i =>
    rw [runCommand_of_ok w i hd, runCommand_of_ok w i hd]
    exact sameButTable_exec i h h'

theorem sameButTable_step {s : State} {box : Vector Byte 256} {v : Bool} (h : TableOk s)
    (h' : TableOk (withTable box v s)) : SameButTable (step s) (step (withTable box v s)) := by
  have hp : (withTable box v s).pending = s.pending := rfl
  match hm : s.pending with
  | [] =>
    rw [step_of_waiting hm, step_of_waiting (hp.trans hm)]
    exact ⟨s, box, v, rfl, rfl⟩
  | .command w :: rest =>
    rw [step_of_command hm, step_of_command (hp.trans hm)]
    exact sameButTable_runCommand w (s := { s with pending := rest }) h h'
  | .reset :: rest =>
    rw [step_of_reset hm, step_of_reset (hp.trans hm), hostReset_eq, hostReset_eq]
    exact ⟨_, _, _, rfl, rfl⟩

/-- Settles O44, by induction on the number of steps: after each the runs differ in the table only, and both tables are
sound again (O41). -/
theorem tableIsHidden : Obligations.TableIsHidden := by
  unfold Obligations.TableIsHidden
  intro n
  induction n with
  | zero => exact fun s box v _ _ => ⟨s, _, rfl, rfl, rfl⟩
  | succ n ih =>
    intro s box v h h'
    obtain ⟨t, box', v', ht, ht'⟩ := sameButTable_step h h'
    obtain ⟨t', u', hr, hr', hrs⟩ := ih t box' v' (tableInvariantIsKept s t h ht) (tableInvariantIsKept _ _ h' ht')
    exact ⟨t', u', (core_run_succ n ht).trans hr, (core_run_succ n ht').trans hr', hrs⟩

end Sys2Proof.Machine

/-! ## The buffer (spec/20_memory.md): repeated reads, bytes pushed in order

A read answers the same twice because what it leaves looks to it like what it found (`exec_of_visible`). The pushed bytes
stand in order because each `PUSH` appends its byte to the sequence `bufBytes` that the buffer holds (R21, R43). -/
namespace Sys2Proof.Machine

/-! ### Reading twice (O19) -/

/-- One set of writes and one response belong to a command in all states that look like `s`. -/
theorem exec_of_visible (i : Instr) (s : State) :
    ∃ w r, (w = {} ∨ w = writesOf i (visible s)) ∧ ∀ s', visible s' = visible s →
      exec i s' = .next { w.apply s' with responses := s'.responses ++ [r] } := by
  have len_eq {s' : State} (h : visible s' = visible s) : s'.len = s.len := by
    rw [← visible_len s', h, visible_len]
  rcases exec_decided_by_visible i (visible s) with ⟨e, he⟩ | ha
  · refine ⟨{}, packRsp e s.len 0, .inl rfl, fun s' h => ?_⟩
    rw [← len_eq h, he s' h, raise_eq, raised, ← Writes.apply_empty]
  · refine ⟨_, packRsp .ok ((writesOf i (visible s)).len.getD s.len) (valueOf i (visible s)), .inr rfl, fun s' h => ?_⟩
    rw [← len_eq h, ← Writes.apply_len, ha s' h, answer_eq, Writes.apply_responses]

/-- Neither the table built on demand nor a response is visible. -/
theorem visible_of_table_write (b : Bool) (s : State) (rs : List Rsp) :
    visible { ({ table := b } : Writes).apply s with responses := rs } = visible s := by
  apply state_ext
  case sbox => cases b <;> cases h : s.sbv <;> simp [h]
  all_goals simp

/-- Settles O19: the read-only commands write nothing, `SBRD` the table at most, and none sees a difference after it. -/
theorem readsAreIdempotent : Obligations.ReadsAreIdempotent := by
  unfold Obligations.ReadsAreIdempotent
  refine ⟨fun i s hi => ?_, fun h l s => ?_⟩
  · obtain ⟨w, r, hw, he⟩ := exec_of_visible i s
    have hnone : writesOf i (visible s) = {} := by
      rcases hi with ⟨k, rfl⟩ | rfl | ⟨x, rfl⟩ | ⟨a, b, rfl⟩ | ⟨a, rfl⟩ | ⟨h, l, rfl⟩ <;> rfl
    obtain rfl : w = {} := hw.elim id (·.trans hnone)
    simp only [← Writes.apply_empty] at he
    refine ⟨r, he s rfl, ?_⟩
    rw [he _ (visible_of_host s s.pending (s.responses ++ [r]) s.resets), List.append_assoc, List.singleton_append]
  · obtain ⟨w, r, hw, he⟩ := exec_of_visible (.sbrd h l) s
    obtain ⟨b, rfl⟩ : ∃ b, w = { table := b } := hw.elim (⟨false, ·⟩) (⟨true, ·⟩)
    refine ⟨_, _, r, he s rfl, he _ (visible_of_table_write b s _), ?buffer, ?matrix, ?words, ?host, ?_, ?_⟩
    case buffer => exact ⟨Vector.ext fun j hj => by simp, by simp⟩
    all_goals simp [KeepsMatrix, KeepsWords, KeepsHostSide]

/-! ### Pushing bytes in order (O23) -/

theorem fieldOp_append (op : BitVec 8) (x : WideOperand) : fieldOp (op ++ x : BitVec (8 + 24)) = op :=
  BitVec.extractLsb'_append_eq_left

theorem fieldA_append (op : BitVec 8) (a b : Operand) :
    fieldA (op ++ (a ++ b : BitVec (12 + 12)) : BitVec (8 + (12 + 12))) = a :=
  (BitVec.extractLsb'_append_eq_of_add_le (by decide)).trans BitVec.extractLsb'_append_eq_left

theorem fieldB_append (op : BitVec 8) (a b : Operand) :
    fieldB (op ++ (a ++ b : BitVec (12 + 12)) : BitVec (8 + (12 + 12))) = b :=
  (BitVec.extractLsb'_append_eq_of_add_le (by decide)).trans BitVec.extractLsb'_append_eq_right

/-- The word of a `PUSH` spells it (R60, R61). -/
theorem decode_encode_push (b : Operand) : decode (encode (.push b)) = .ok (.push b) := by
  have hop : fieldOp (encode (.push b)) = 0x02#8 := fieldOp_append _ _
  have hA : fieldA (encode (.push b)) = b := fieldA_append _ _ _
  have hB : fieldB (encode (.push b)) = 0 := fieldB_append _ _ _
  unfold decode
  rw [hop]
  simp [formatA, hA, hB]

/-- A presented word that spells `i` runs the meaning of `i`. -/
theorem step_of_decoded {s : State} {w : Cmd} {rest : List HostMove} {i : Instr} (hp : Presents s w rest)
    (hd : decode w = .ok i) : step s = exec i { s with pending := rest } :=
  (step_of_command hp).trans (runCommand_of_ok w i hd _)

@[simp] theorem bufBytes_length (s : State) : (bufBytes s).length = s.len.val := by
  rw [bufBytes, List.length_take, Vector.length_toList, Nat.min_eq_left (by omega)]

/-- Below `LEN` a cell of the buffer is an element of its byte sequence (R21). -/
theorem bufBytes_getElem? (s : State) (j : Nat) (h : j < s.len.val) : (bufBytes s)[j]? = s.buf[j]? := by
  simp [bufBytes, List.getElem?_take_of_lt h]

/-- Writing the cell at `LEN` and counting it appends its byte to the sequence (R82). -/
theorem bufBytes_append (s : State) (b : Byte) (h : s.len.val < 32) :
    bufBytes { s with buf := s.buf.set s.len.val b h, len := ⟨s.len.val + 1, by omega⟩ } = bufBytes s ++ [b] := by
  simp [bufBytes, List.take_add_one, Vector.toList_set, List.take_set_of_le, h]

/-- `t` is `s` with the bytes `bs` appended to those in the buffer; the other elements are as before. -/
structure Appended (s t : State) (bs : List Byte) : Prop where
  bytes : bufBytes t = bufBytes s ++ bs
  matrix : KeepsMatrix s t
  words : KeepsWords s t
  table : KeepsTable s t

theorem Appended.len {s t : State} {bs : List Byte} (h : Appended s t bs) : t.len.val = s.len.val + bs.length := by
  rw [← bufBytes_length, h.bytes, List.length_append, bufBytes_length]

theorem Appended.refl (s : State) : Appended s s [] :=
  ⟨(List.append_nil _).symm, rfl, ⟨rfl, rfl⟩, rfl, rfl⟩

theorem Appended.trans {s t u : State} {bs cs : List Byte} (h : Appended s t bs) (h' : Appended t u cs) :
    Appended s u (bs ++ cs) where
  bytes := by rw [h'.bytes, h.bytes, List.append_assoc]
  matrix := Eq.trans h'.matrix h.matrix
  words := ⟨h'.words.1.trans h.words.1, h'.words.2.trans h.words.2⟩
  table := ⟨h'.table.1.trans h.table.1, h'.table.2.trans h.table.2⟩

/-- The move of the host that presents a `PUSH` of the byte `b`. -/
def pushMove (b : Byte) : HostMove := .command (encode (.push (b.setWidth 12)))

/-- With room in the buffer, a presented `PUSH` appends its byte (R82). -/
theorem step_pushMove {s : State} {b : Byte} {rest : List HostMove} (hp : s.pending = pushMove b :: rest)
    (hl : s.len.val < 32) : ∃ t, step s = .next t ∧ t.pending = rest ∧ Appended s t [b] := by
  have hb : (b.setWidth 12).toNat ≤ 255 := by have := b.isLt; simp; omega
  have hlow : lowByte (b.setWidth 12) = b := by rw [lowByte_eq_setWidth]; simp
  have hstep := (step_of_decoded hp (decode_encode_push _)).trans
    (exec_push_of_room _ { s with pending := rest } hb hl)
  rw [hlow] at hstep
  exact ⟨_, hstep.trans (answer_eq _ _), rfl, bufBytes_append s b hl, rfl, ⟨rfl, rfl⟩, rfl, rfl⟩

/-- Presented `PUSH`es that fit append their bytes, first byte first. -/
theorem run_pushMoves (bs : List Byte) {s : State} {rest : List HostMove} (hl : s.len.val + bs.length ≤ 32)
    (hp : s.pending = bs.map pushMove ++ rest) :
    ∃ t : State, core.run bs.length s = .next t ∧ t.pending = rest ∧ Appended s t bs := by
  induction bs generalizing s with
  | nil => exact ⟨s, rfl, hp, .refl s⟩
  | cons b bs ih =>
    rw [List.length_cons] at hl
    obtain ⟨t, hs, ht, hst⟩ := step_pushMove hp (by omega)
    have hlen : t.len.val = s.len.val + 1 := hst.len
    obtain ⟨u, hr, hu, htu⟩ := ih (by omega) ht
    exact ⟨u, (core_run_succ _ hs).trans hr, hu, hst.trans htu⟩

/-- A presented `CLR` leaves what it would leave with no byte appended after it: the empty sequence (R81). -/
theorem step_clr {s : State} {rest : List HostMove} (hp : s.pending = .command (encode .clr) :: rest) :
    ∃ t, step s = .next t ∧ t.pending = rest ∧ Appended { s with len := 0 } t [] :=
  ⟨_, ((step_of_decoded hp (by decide)).trans (exec_clr _)).trans (answer_eq _ _), rfl, rfl, rfl, ⟨rfl, rfl⟩, rfl, rfl⟩

/-- Settles O23: `CLR` leaves the empty sequence, to which the pushes append their bytes. -/
theorem pushedBytesStandInOrder : Obligations.PushedBytesStandInOrder := by
  unfold Obligations.PushedBytesStandInOrder
  intro bs s rest hn hp
  obtain ⟨t, hs, ht, hclr⟩ := step_clr hp
  have hlen : t.len.val = 0 := hclr.len
  obtain ⟨u, hr, hu, hpush⟩ := run_pushMoves bs (by omega) ht
  have hall : Appended { s with len := 0 } u bs := hclr.trans hpush
  have hlen' : u.len.val = bs.length := hall.len.trans (Nat.zero_add _)
  refine ⟨u, (core_run_succ _ hs).trans hr, hlen', hu, fun j hj => ?_, hall.matrix, hall.words, hall.table⟩
  have hbytes : bufBytes u = bs := hall.bytes
  rw [← List.getElem?_eq_getElem hj, ← bufBytes_getElem? u j (by omega), hbytes]

end Sys2Proof.Machine

/-! ## The command word (spec/30_encoding.md): encoder, decoder and opcode map

The three are tied to one description of a command: its opcode (`opcodeOf`), the operand bits that its format does not use
(`unusedBits`) and the command read from the fields of a word (`withFields`). A word has the row of `i` exactly when it
has the opcode of `i` and zeros in the unused bits (`row_accepts_iff`); the decoder then reads `withFields w i`
(`decode_of_opcode`), and that command encodes to the word (`encode_withFields`). -/
namespace Sys2Proof.Machine

/-! ### The fields of a word (R60) -/

theorem fieldX_append (op : BitVec 8) (x : WideOperand) : fieldX (op ++ x : BitVec (8 + 24)) = x :=
  BitVec.extractLsb'_append_eq_right

theorem fieldOp_append_fieldX (w : Cmd) : (fieldOp w ++ fieldX w : BitVec (8 + 24)) = w :=
  BitVec.extractLsb'_append_extractLsb'

theorem fieldA_append_fieldB (w : Cmd) : (fieldA w ++ fieldB w : BitVec (12 + 12)) = fieldX w :=
  BitVec.extractLsb'_append_extractLsb'_eq_extractLsb' rfl

/-- A word is its opcode and its operand bits. -/
theorem word_eq_iff (w v : Cmd) : w = v ↔ fieldOp w = fieldOp v ∧ fieldX w = fieldX v := by
  refine ⟨fun h => h ▸ ⟨rfl, rfl⟩, fun ⟨hop, hx⟩ => ?_⟩
  rw [← fieldOp_append_fieldX w, ← fieldOp_append_fieldX v, hop, hx]

theorem fieldOp_and (w v : Cmd) : fieldOp (w &&& v) = fieldOp w &&& fieldOp v := BitVec.extractLsb'_and

theorem fieldX_and (w v : Cmd) : fieldX (w &&& v) = fieldX w &&& fieldX v := BitVec.extractLsb'_and

theorem fieldOp_toNat (w : Cmd) : (fieldOp w).toNat = w.toNat / 2 ^ 24 := by
  rw [fieldOp, BitVec.extractLsb'_toNat, Nat.shiftRight_eq_div_pow]; omega

theorem fieldA_toNat (w : Cmd) : (fieldA w).toNat = w.toNat / 2 ^ 12 % 2 ^ 12 := by
  rw [fieldA, BitVec.extractLsb'_toNat, Nat.shiftRight_eq_div_pow]

theorem fieldB_toNat (w : Cmd) : (fieldB w).toNat = w.toNat % 2 ^ 12 := BitVec.extractLsb'_toNat 0 12 w

theorem fieldX_toNat (w : Cmd) : (fieldX w).toNat = w.toNat % 2 ^ 24 := BitVec.extractLsb'_toNat 0 24 w

/-- The low half of `X` is zero exactly when `B` is. -/
theorem fieldX_and_low_eq_zero_iff (w : Cmd) :
    fieldX w &&& (0#12 ++ BitVec.allOnes 12 : BitVec (12 + 12)) = (0 : WideOperand) ↔ fieldB w = 0 := by
  have hz : (0 : WideOperand) = (0#12 ++ (0 : Operand) : BitVec (12 + 12)) := by decide
  rw [← fieldA_append_fieldB w, BitVec.and_append, BitVec.and_zero, BitVec.and_allOnes, hz, BitVec.append_right_inj]

/-! ### A command and the words of its opcode (R61, R65) -/

/-- The operand bits that the format of a command does not use (R61): all of `X`, or field `B`, or none. -/
def unusedBits : Instr → WideOperand
  | .push _ | .rdb _ | .ginv _ => 0#12 ++ BitVec.allOnes 12
  | .gmul _ _ | .sboxv _ _ | .sbrd _ _ | .deg _ => 0#24
  | .clr | .xsum | .ldwa | .ldwb | .wmul | .sbgen | .ldst | .rdst
  | .sub | .shr | .mix | .dbl | .dblx => BitVec.allOnes 24

/-- The command `i` with its operands read from the fields of `w`. -/
def withFields (w : Cmd) : Instr → Instr
  | .push _ => .push (fieldA w)
  | .rdb _ => .rdb (fieldA w)
  | .ginv _ => .ginv (fieldA w)
  | .gmul _ _ => .gmul (fieldA w) (fieldB w)
  | .sboxv _ _ => .sboxv (fieldA w) (fieldB w)
  | .sbrd _ _ => .sbrd (fieldA w) (fieldB w)
  | .deg _ => .deg (fieldX w)
  | i => i

theorem opcodeOf_withFields (w : Cmd) (i : Instr) : opcodeOf (withFields w i) = opcodeOf i := by cases i <;> rfl

theorem fieldOp_encode (i : Instr) : fieldOp (encode i) = opcodeOf i := fieldOp_append _ _

theorem fieldX_encode (i : Instr) : fieldX (encode i) = operandBits i := fieldX_append _ _

/-- The encoder writes zeros in the unused bits. -/
theorem encode_unused (i : Instr) : fieldX (encode i) &&& unusedBits i = 0 := by
  have hA (a : Operand) : (a ++ (0 : Operand) : BitVec (12 + 12)) &&& (0#12 ++ BitVec.allOnes 12) = 0 := by
    rw [BitVec.and_append, BitVec.and_zero, BitVec.and_allOnes]; rfl
  rw [fieldX_encode]
  cases i with
  | push a | rdb a | ginv a => exact hA a
  | gmul a b | sboxv a b | sbrd a b => exact BitVec.and_zero
  | deg x => exact BitVec.and_zero
  | _ => exact BitVec.zero_and

/-- The operands of a command stand in the fields of its word. -/
theorem withFields_encode (i : Instr) : withFields (encode i) i = i := by
  cases i with
  | push a | rdb a | ginv a => exact congrArg _ (fieldA_append _ a 0)
  | gmul a b | sboxv a b | sbrd a b => exact congrArg₂ _ (fieldA_append _ a b) (fieldB_append _ a b)
  | deg x => exact congrArg _ (fieldX_append _ x)
  | _ => rfl

/-- With zeros in the unused bits, the operand bits of a word are those of the command read from its fields. -/
theorem operandBits_withFields {w : Cmd} {i : Instr} (hu : fieldX w &&& unusedBits i = 0) :
    operandBits (withFields w i) = fieldX w := by
  cases i with
  | push | rdb | ginv =>
    have hB : fieldB w = 0 := (fieldX_and_low_eq_zero_iff w).1 hu
    exact (congrArg (fieldA w ++ ·) hB.symm).trans (fieldA_append_fieldB w)
  | gmul | sboxv | sbrd => exact fieldA_append_fieldB w
  | deg => rfl
  | _ => exact (BitVec.and_allOnes.symm.trans hu).symm

/-- The command read from a word with the opcode of `i` and zeros in the unused bits encodes to the word. -/
theorem encode_withFields {w : Cmd} {i : Instr} (hop : fieldOp w = opcodeOf i) (hu : fieldX w &&& unusedBits i = 0) :
    encode (withFields w i) = w := by
  rw [word_eq_iff, fieldOp_encode, fieldX_encode, opcodeOf_withFields, operandBits_withFields hu]
  exact ⟨hop.symm, rfl⟩

/-! ### The decoder, by the opcode of the word (R70 steps 1 and 2) -/

/-- The commands of the opcode map, in the order of R65; the operands do not matter. -/
def commands : List Instr :=
  [.clr, .push 0, .rdb 0, .deg 0, .gmul 0 0, .ginv 0, .xsum, .ldwa, .ldwb, .wmul,
   .sboxv 0 0, .sbgen, .sbrd 0 0, .ldst, .rdst, .sub, .shr, .mix, .dbl, .dblx]

/-- On a word with the opcode of `i` the decoder checks the unused bits and reads the operands from the fields. -/
theorem decode_of_opcode {w : Cmd} {i : Instr} (hop : fieldOp w = opcodeOf i) :
    decode w = if fieldX w &&& unusedBits i = 0 then .ok (withFields w i)
      else .error (.unusedFieldNotZero (fieldOp w)) := by
  cases i with
  | push | rdb | ginv => simp only [decode, hop, opcodeOf, formatA, unusedBits, fieldX_and_low_eq_zero_iff]; rfl
  | gmul | sboxv | sbrd => simp only [decode, hop, opcodeOf, formatAB, unusedBits, BitVec.and_zero]; rfl
  | deg => simp only [decode, hop, opcodeOf, formatX, unusedBits, BitVec.and_zero]; rfl
  | _ => simp only [decode, hop, opcodeOf, formatN, unusedBits, BitVec.and_allOnes]; rfl

/-- A word that decodes has the opcode of a command. -/
theorem exists_opcode_of_decode {w : Cmd} {j : Instr} (h : decode w = .ok j) : ∃ i, fieldOp w = opcodeOf i := by
  suffices (fieldOp w).toNat ∈ commands.map fun i => (opcodeOf i).toNat by
    obtain ⟨i, -, hi⟩ := List.mem_map.1 this
    exact ⟨i, BitVec.eq_of_toNat_eq hi.symm⟩
  unfold decode at h
  split at h
  case h_21 => cases h
  all_goals
    next hop => rw [hop]; decide

/-- Settles O1: the word of a command has its opcode, zeros in the unused bits and its operands in the fields. -/
theorem decodeOfEncodeIsTheCommand : Obligations.DecodeOfEncodeIsTheCommand := by
  unfold Obligations.DecodeOfEncodeIsTheCommand
  intro i
  rw [decode_of_opcode (fieldOp_encode i), if_pos (encode_unused i), withFields_encode]

/-- Settles O2: what a word decodes to is the command read from its fields, and that encodes to the word. -/
theorem encodeOfDecodeIsTheWord : Obligations.EncodeOfDecodeIsTheWord := by
  unfold Obligations.EncodeOfDecodeIsTheWord
  intro w j h
  obtain ⟨i, hop⟩ := exists_opcode_of_decode h
  rw [decode_of_opcode hop] at h
  split at h
  next hu => rw [← Except.ok.inj h, encode_withFields hop hu]
  next => cases h

/-- Settles O4: the word is the one its command encodes to, and there the operands stand in the fields (O1, O2). -/
theorem decodedOperandsAreTheFields : Obligations.DecodedOperandsAreTheFields := by
  unfold Obligations.DecodedOperandsAreTheFields
  intro w i h
  have hi : withFields w i = i := encodeOfDecodeIsTheWord w i h ▸ withFields_encode i
  rw [← hi]
  cases i <;> simp only [withFields, operandsOf, fieldA_toNat, fieldB_toNat, fieldX_toNat]

/-! ### The opcode map (R65) -/

theorem opcodeRows_eq : opcodeRows = commands.map Instr.row := rfl

theorem row_mem_opcodeRows (i : Instr) : i.row ∈ opcodeRows := by
  cases i <;> simp only [Instr.row] <;> decide

/-- The match value of a row is the opcode, its mask the opcode's bits and the unused bits. -/
theorem row_fields (i : Instr) :
    fieldOp i.row.matchBits = opcodeOf i ∧ fieldX i.row.matchBits = 0 ∧
      fieldOp i.row.maskBits = BitVec.allOnes 8 ∧ fieldX i.row.maskBits = unusedBits i := by
  cases i <;> simp only [Instr.row, opcodeOf, unusedBits] <;> decide

/-- The row of `i` accepts the words with the opcode of `i` and zeros in the unused bits. -/
theorem row_accepts_iff (i : Instr) (w : Cmd) :
    i.row.accepts w = true ↔ fieldOp w = opcodeOf i ∧ fieldX w &&& unusedBits i = 0 := by
  obtain ⟨hop, hx, hmop, hmx⟩ := row_fields i
  rw [OpcodeRow.accepts, beq_iff_eq, word_eq_iff, fieldOp_and, fieldX_and, hop, hx, hmop, hmx, BitVec.and_allOnes]

theorem wellFormed_iff (w : Cmd) : wellFormed w = true ↔ ∃ i : Instr, i.row.accepts w = true := by
  rw [wellFormed, List.any_eq_true]
  constructor
  · rintro ⟨r, hr, hw⟩
    obtain ⟨i, -, rfl⟩ := List.mem_map.1 (opcodeRows_eq ▸ hr)
    exact ⟨i, hw⟩
  · exact fun ⟨i, hw⟩ => ⟨i.row, row_mem_opcodeRows i, hw⟩

/-- No two rows have one opcode. -/
theorem row_eq_of_opcode : ∀ r ∈ opcodeRows, ∀ q ∈ opcodeRows, fieldOp r.matchBits = fieldOp q.matchBits → r = q := by
  decide

/-- The rows that accept one word have one opcode, so they are one row. -/
theorem row_eq_of_accepts {w : Cmd} {r q : OpcodeRow} (hr : r ∈ opcodeRows) (hq : q ∈ opcodeRows)
    (hrw : r.accepts w = true) (hqw : q.accepts w = true) : r = q := by
  refine row_eq_of_opcode r hr q hq ?_
  obtain ⟨i, -, rfl⟩ := List.mem_map.1 (opcodeRows_eq ▸ hr)
  obtain ⟨j, -, rfl⟩ := List.mem_map.1 (opcodeRows_eq ▸ hq)
  rw [(row_fields i).1, (row_fields j).1, ← ((row_accepts_iff i w).1 hrw).1, ((row_accepts_iff j w).1 hqw).1]

/-- Settles O3: both accept the words that some command encodes to; the rows are told apart by their opcodes. -/
theorem decodeAgreesWithTheOpcodeMap : Obligations.DecodeAgreesWithTheOpcodeMap := by
  unfold Obligations.DecodeAgreesWithTheOpcodeMap
  intro w
  have accepts_of_decode {i : Instr} (h : decode w = .ok i) : i.row.accepts w = true :=
    encodeOfDecodeIsTheWord w i h ▸ (row_accepts_iff i _).2 ⟨fieldOp_encode i, encode_unused i⟩
  refine ⟨?_, fun i h r hr => ⟨fun hw => ?_, fun hri => hri ▸ accepts_of_decode h⟩⟩
  · rw [wellFormed_iff]
    refine ⟨fun ⟨i, h⟩ => ⟨i, accepts_of_decode h⟩, fun ⟨i, hw⟩ => ?_⟩
    obtain ⟨hop, hu⟩ := (row_accepts_iff i w).1 hw
    exact ⟨withFields w i, by rw [decode_of_opcode hop, if_pos hu]⟩
  · exact row_eq_of_accepts hr (row_mem_opcodeRows i) hw (accepts_of_decode h)

/-! ### Illegal words (R66) -/

/-- A well-formed word has the opcode of a command, and zeros in the bits that this command does not use. -/
theorem exists_of_wellFormed {w : Cmd} (h : wellFormed w = true) :
    ∃ i, w.toNat / 2 ^ 24 = (opcodeOf i).toNat ∧ fieldX w &&& unusedBits i = 0 := by
  obtain ⟨i, hi⟩ := (wellFormed_iff w).1 h
  obtain ⟨hop, hu⟩ := (row_accepts_iff i w).1 hi
  exact ⟨i, by rw [← fieldOp_toNat, hop], hu⟩

/-- A presented word that no row accepts raises `IllegalCommand`. -/
theorem step_of_ill_formed {s : State} {w : Cmd} {rest : List HostMove} (hp : Presents s w rest)
    (hw : wellFormed w = false) : step s = .next (raised .illegalCommand { s with pending := rest }) := by
  rw [step_of_command hp]
  cases hd : decode w with
  | error e => rw [runCommand_of_error w e hd, raise_eq]
  | ok i =>
    have hwf : wellFormed w = true := (decodeAgreesWithTheOpcodeMap w).1.1 ⟨i, hd⟩
    exact absurd hwf (Bool.eq_false_iff.1 hw)

/-- Settles O7: a word that some row accepts has that row's opcode and zeros in its unused bits. -/
theorem illegalWordChangesNothing : Obligations.IllegalWordChangesNothing := by
  unfold Obligations.IllegalWordChangesNothing
  refine ⟨fun w hop => ?unassigned, fun w hop hx => ?formatN, fun w hop hb => ?formatA,
    fun s w rest => step_of_ill_formed⟩
  all_goals
    refine Bool.eq_false_iff.2 fun hw => ?_
    obtain ⟨i, hi, hu⟩ := exists_of_wellFormed hw
    rw [hi] at hop
  case unassigned => exact hop (by cases i <;> simp only [opcodeOf] <;> decide)
  case formatN =>
    have hall : unusedBits i = BitVec.allOnes 24 := by revert hop; cases i <;> simp [opcodeOf, unusedBits]
    rw [hall, BitVec.and_allOnes] at hu
    exact hx (by rw [← fieldX_toNat, hu]; rfl)
  case formatA =>
    have hlow : unusedBits i = (0#12 ++ BitVec.allOnes 12 : BitVec (12 + 12)) := by
      revert hop; cases i <;> simp [opcodeOf, unusedBits]
    rw [hlow, fieldX_and_low_eq_zero_iff] at hu
    exact hb (by rw [← fieldB_toNat, hu]; rfl)

/-! ### The response word (R63, R64) -/

theorem rspErr_toNat (r : Rsp) : (rspErr r).toNat = r.toNat / 2 ^ 14 := by
  rw [rspErr, BitVec.extractLsb'_toNat, Nat.shiftRight_eq_div_pow]; omega

theorem rspLen_toNat (r : Rsp) : (rspLen r).toNat = r.toNat / 2 ^ 8 % 2 ^ 6 := by
  rw [rspLen, BitVec.extractLsb'_toNat, Nat.shiftRight_eq_div_pow]

theorem rspVal_toNat (r : Rsp) : (rspVal r).toNat = r.toNat % 2 ^ 8 := BitVec.extractLsb'_toNat 0 8 r

section PackRsp
variable (e : Err) (n : Fin 33) (v : Byte)

theorem packRsp_err_toNat : (packRsp e n v).toNat / 2 ^ 14 = e.code.toNat := by rw [← rspErr_toNat, rspErr_packRsp]

theorem packRsp_len_toNat : (packRsp e n v).toNat / 2 ^ 8 % 2 ^ 6 = n.val := by
  rw [← rspLen_toNat, rspLen_packRsp, BitVec.toNat_ofNat]; omega

theorem packRsp_val_toNat : (packRsp e n v).toNat % 2 ^ 8 = v.toNat := by rw [← rspVal_toNat, rspVal_packRsp]

end PackRsp

/-- A command without a scalar result answers with the value 0 (R64). -/
theorem valueOf_of_no_result {i : Instr} (v : State) (h : hasResult i = false) : valueOf i v = 0 := by
  cases i <;> simp_all [hasResult, valueOf]

/-- A presented word raises an exception or is answered, by a command without a scalar result with the value 0 (R64). -/
theorem runCommand_cases (w : Cmd) (s : State) :
    (∃ e, runCommand w s = raise e s) ∨
      ∃ v t, runCommand w s = answer v t ∧ t.responses = s.responses ∧
        ∀ i, decode w = .ok i → hasResult i = false → v = 0 := by
  cases hd : decode w with
  | error e => exact .inl ⟨_, runCommand_of_error w e hd s⟩
  | ok i =>
    rw [runCommand_of_ok w i hd]
    refine (exec_cases i s).imp_right fun ha => ⟨_, _, ha, Writes.apply_responses _ _, fun j hj hres => ?_⟩
    exact valueOf_of_no_result _ (Except.ok.inj hj ▸ hres)

/-- Settles O15: `packRsp` lays the fields out; an exception packs 0 and the length before, an answer packs `ERR = 0`. -/
theorem responseFieldsAreAsLaidOut : Obligations.ResponseFieldsAreAsLaidOut := by
  unfold Obligations.ResponseFieldsAreAsLaidOut
  refine ⟨fun e n v => ⟨?_, packRsp_len_toNat e n v, packRsp_val_toNat e n v⟩, fun s w rest hp => ?_⟩
  · rw [packRsp_err_toNat]
    cases e <;> rfl
  · rw [step_of_command hp]
    rcases runCommand_cases w { s with pending := rest } with ⟨e, he⟩ | ⟨v, t, ha, hrs, hv⟩
    · have hval : (packRsp e s.len 0).toNat % 2 ^ 8 = 0 := packRsp_val_toNat e s.len 0
      exact ⟨_, _, he.trans (raise_eq _ _), rfl, packRsp_len_toNat _ _ _, fun _ => ⟨hval, rfl⟩, fun _ _ _ => hval⟩
    · refine ⟨_, packRsp .ok t.len v, ha.trans (answer_eq _ _), congrArg (· ++ _) hrs, packRsp_len_toNat _ _ _,
        fun hne => absurd (packRsp_err_toNat .ok t.len v) hne, fun i hd hres => ?_⟩
      rw [packRsp_val_toNat, hv i hd hres]; rfl

/-! ### Worked encodings, and the step of a word that decodes (R70, R72) -/

/-- Settles O5: fixed words. -/
theorem workedEncodingsAreRead : Obligations.WorkedEncodingsAreRead := by
  unfold Obligations.WorkedEncodingsAreRead
  decide

/-- Settles O6: the engine takes the move and runs what the word spells. -/
theorem stepRunsTheDecodedCommand : Obligations.StepRunsTheDecodedCommand := by
  unfold Obligations.StepRunsTheDecodedCommand
  exact fun s w rest i hp hd => step_of_decoded hp hd

end Sys2Proof.Machine

/-! ## Buffer I/O (spec/40_buffer_io.md): `CLR`, `PUSH`, `RDB`

The statements give `PUSH` and `RDB` as words made by shifts; `decode_word_of_operand` ties the word so made to its command.
What the commands do, branch by branch, are the equations of `exec` in Sys2Proof/Laws/Exec.lean. -/
namespace Sys2Proof.Machine

/-! ### Words made by shifts (R60, R61) -/

/-- A word is its opcode, shifted into `CMD[31:24]`, and its operand bits. -/
theorem encode_eq_shift_or (i : Instr) :
    encode i = (opcodeOf i).setWidth 32 <<< 24 ||| (operandBits i).setWidth 32 :=
  (BitVec.setWidth_eq _).symm.trans BitVec.setWidth_append_eq_shiftLeft_setWidth_or

/-- A single operand stands in `CMD[23:12]`, over zeros (format `A`). -/
theorem setWidth_append_zero (a : Operand) :
    (a ++ (0 : Operand) : BitVec (12 + 12)).setWidth 32 = a.setWidth 32 <<< 12 :=
  BitVec.setWidth_append_eq_shiftLeft_setWidth_or.trans BitVec.or_zero

/-- The word made from the opcode and the operand of a command of format `A` spells it. -/
theorem decode_word_of_operand (op : BitVec 8) {i : Instr} {a : Operand} (hop : opcodeOf i = op)
    (ha : operandBits i = a ++ (0 : Operand)) :
    decode (op.setWidth 32 <<< 24 ||| a.setWidth 32 <<< 12) = .ok i := by
  rw [← hop, ← setWidth_append_zero, ← ha, ← encode_eq_shift_or]
  exact decodeOfEncodeIsTheCommand i

/-! ### The buffer commands -/

/-- Settles O20: in every state `CLR` answers, and writes `LEN` alone. -/
theorem clrEmptiesTheBuffer : Obligations.ClrEmptiesTheBuffer := by
  unfold Obligations.ClrEmptiesTheBuffer
  refine ⟨by decide, fun s => ?_⟩
  exact ⟨_, (exec_clr s).trans (answer_eq _ _), rfl, rfl, rfl, ⟨rfl, rfl⟩, ⟨rfl, rfl⟩, ⟨rfl, rfl⟩, rfl⟩

/-- Settles O21: with a byte and room `PUSH` answers and writes the cell at `LEN`; else it raises. -/
theorem pushAppendsOneByte : Obligations.PushAppendsOneByte := by
  unfold Obligations.PushAppendsOneByte
  refine ⟨fun b => decode_word_of_operand 0x02 rfl rfl, fun b s =>
    ⟨fun hb hl => ?_, exec_push_of_not_byte b s, exec_push_of_full b s⟩⟩
  refine ⟨_, (exec_push_of_room b s hb (by omega)).trans (answer_eq _ _), rfl, fun j hj => ?cell,
    rfl, ⟨rfl, rfl⟩, ⟨rfl, rfl⟩, ⟨rfl, rfl⟩, rfl⟩
  case cell => simp only [Vector.getElem_set, apply_ite BitVec.toNat, lowByte_toNat b hb, eq_comm]

/-- Settles O22: below `LEN` `RDB` answers the cell and writes nothing; from `LEN` on it raises. -/
theorem rdbReadsOneByte : Obligations.RdbReadsOneByte := by
  unfold Obligations.RdbReadsOneByte
  exact ⟨fun k => decode_word_of_operand 0x03 rfl rfl, fun k s =>
    ⟨fun hk => (exec_rdb_of_lt k s hk).trans (answer_eq _ _), exec_rdb_of_ge k s⟩⟩

end Sys2Proof.Machine

/-! ## Field arithmetic (spec/41_field_arithmetic.md): `DEG`, `GMUL`, `GINV`, `XSUM`, `LDWA`, `LDWB`, `WMUL`

The laws of the product (`clmul_reducesTo_gmul`, `gmul_comm`, `gmul_assoc`) are linear in each operand, so they are looked
at on the powers of `x` only (`byte_induction₂`). Associativity makes inverses unique, and with that the product alone says
what the search `ginv` finds (`ginv_eq_some_iff`). Sums are XOR-folds of lists, in any order (`xorsum_perm`). -/
namespace Sys2Proof.Machine

/-! ### Words made by shifts, for two operands and for a wide one (R60, R61) -/

/-- The word made from the opcode and the wide operand of a command of format `X` spells it. -/
theorem decode_word_of_wide_operand (op : BitVec 8) {i : Instr} {x : WideOperand} (hop : opcodeOf i = op)
    (hx : operandBits i = x) : decode (op.setWidth 32 <<< 24 ||| x.setWidth 32) = .ok i := by
  rw [← hop, ← hx, ← encode_eq_shift_or]
  exact decodeOfEncodeIsTheCommand i

/-- The word made from the opcode and the two operands of a command of format `AB` spells it. -/
theorem decode_word_of_operands (op : BitVec 8) {i : Instr} {a b : Operand} (hop : opcodeOf i = op)
    (hab : operandBits i = a ++ b) :
    decode (op.setWidth 32 <<< 24 ||| a.setWidth 32 <<< 12 ||| b.setWidth 32) = .ok i := by
  rw [BitVec.or_assoc, ← BitVec.setWidth_append_eq_shiftLeft_setWidth_or]
  exact decode_word_of_wide_operand op hop hab

/-! ### The degree (R90, R91) -/

theorem degree_of_pos {x : Nat} (h : 0 < x) : degree x = x.log2 := if_neg h.ne'

/-- No bit is set above `log2`. -/
theorem testBit_above_log2 (x j : Nat) (h : x.log2 < j) : x.testBit j = false :=
  Nat.testBit_lt_two_pow (Nat.lt_log2_self.trans_le (Nat.pow_le_pow_right (by decide) h))

/-- The degree of a polynomial in 24 bits, as the byte that `DEG` answers. -/
theorem degree_byte_toNat {x : WideOperand} (h : 0 < x.toNat) :
    x.toNat.log2 ≤ 23 ∧ (BitVec.ofInt 8 (degree x.toNat)).toNat = x.toNat.log2 := by
  have hlt : x.toNat.log2 < 24 := (Nat.log2_lt h.ne').2 x.isLt
  rw [degree_of_pos h, BitVec.ofInt_natCast, BitVec.toNat_ofNat]
  omega

/-- Settles O24: the degree is the binary logarithm. -/
theorem degAnswersTheHighestBit : Obligations.DegAnswersTheHighestBit := by
  unfold Obligations.DegAnswersTheHighestBit
  refine ⟨rfl, fun x hx => ?_, fun x => decode_word_of_wide_operand 0x10 rfl rfl, fun x s => ?_⟩
  · exact ⟨x.log2, degree_of_pos hx, Nat.testBit_log2 hx.ne', testBit_above_log2 x⟩
  · refine ⟨_, (exec_deg x s).trans (answer_eq _ _), fun hx => by rw [hx]; rfl, fun hx => ?_⟩
    have hpos : 0 < x.toNat := Nat.pos_of_ne_zero fun h => hx (BitVec.eq_of_toNat_eq h)
    obtain ⟨hle, hv⟩ := degree_byte_toNat hpos
    rw [hv]
    exact ⟨hle, Nat.testBit_log2 hpos.ne', testBit_above_log2 x.toNat⟩

/-! ### The product is the carry-less product, reduced (R92) -/

/-- One summand of the carry-less product: `b · x^i`, if `a` has the term `x^i`. -/
def clmulStep (a b acc i : Nat) : Nat := if a.testBit i then acc ^^^ (b <<< i) else acc

theorem clmul_eq_foldl (a b : Nat) : clmul a b = (List.range 8).foldl (clmulStep a b) 0 := rfl

theorem clmulStep_xor_left (a a' b acc acc' i : Nat) :
    clmulStep a b acc i ^^^ clmulStep a' b acc' i = clmulStep (a ^^^ a') b (acc ^^^ acc') i := by
  have cancel : acc ^^^ (b <<< i) ^^^ (acc' ^^^ (b <<< i)) = acc ^^^ acc' := by
    rw [Nat.xor_assoc, Nat.xor_left_comm (b <<< i), Nat.xor_self, Nat.xor_zero]
  simp only [clmulStep, Nat.testBit_xor]
  cases a.testBit i <;> cases a'.testBit i <;> simp [cancel] <;> ac_rfl

theorem clmulStep_xor_right (a b b' acc acc' i : Nat) :
    clmulStep a b acc i ^^^ clmulStep a b' acc' i = clmulStep a (b ^^^ b') (acc ^^^ acc') i := by
  simp only [clmulStep, Nat.shiftLeft_xor_distrib]
  split
  · ac_rfl
  · rfl

theorem clmul_xor_left (a a' b : Nat) : clmul (a ^^^ a') b = clmul a b ^^^ clmul a' b := by
  simp only [clmul_eq_foldl]
  exact List.foldl_hom₂ _ (· ^^^ ·) _ _ _ 0 0 (clmulStep_xor_left a a' b)

theorem clmul_xor_right (a b b' : Nat) : clmul a (b ^^^ b') = clmul a b ^^^ clmul a b' := by
  simp only [clmul_eq_foldl]
  exact List.foldl_hom₂ _ (· ^^^ ·) _ _ _ 0 0 (clmulStep_xor_right a b b')

/-- What holds of the pairs of powers of `x` below `x^8`, and survives XOR in either place, holds of all pairs. -/
theorem byte_induction₂ {P : Byte → Byte → Prop} (pow : ∀ i < 8, ∀ j < 8, P (1#8 <<< i) (1#8 <<< j))
    (xor_left : ∀ a a' b, P a b → P a' b → P (a ^^^ a') b) (xor_right : ∀ a b b', P a b → P a b' → P a (b ^^^ b'))
    (a b : Byte) : P a b := by
  have pow_left (i : Nat) (hi : i < 8) : P (1#8 <<< i) b :=
    byte_induction (P (1#8 <<< i)) (xor_right _ 1 1 (pow i hi 0 (by decide)) (pow i hi 0 (by decide))) (pow i hi)
      (xor_right _) b
  exact byte_induction (P · b) (xor_left 1 1 b (pow_left 0 (by decide)) (pow_left 0 (by decide))) pow_left
    (fun a a' => xor_left a a' b) a

/-- The polynomial `n` and the field element `r` differ by a carry-less multiple of the modulus, with a quotient of degree
below 7. -/
def ReducesTo (n : Nat) (r : Byte) : Prop := ∃ q < 128, n = clmul q 0x11B ^^^ r.toNat

/-- Reduction respects sums. -/
theorem ReducesTo.xor {m n : Nat} {r t : Byte} (h : ReducesTo m r) (h' : ReducesTo n t) :
    ReducesTo (m ^^^ n) (r ^^^ t) := by
  obtain ⟨q, hq, rfl⟩ := h
  obtain ⟨p, hp, rfl⟩ := h'
  refine ⟨q ^^^ p, Nat.xor_lt_two_pow (n := 7) hq hp, ?_⟩
  rw [clmul_xor_left, BitVec.toNat_xor]
  ac_rfl

/-- The 64 products of powers of `x`, each with its quotient found by search. -/
theorem clmul_powers_reducesTo_gmul :
    ∀ i < 8, ∀ j < 8, ∃ q < 128, clmul (1#8 <<< i).toNat (1#8 <<< j).toNat =
      clmul q 0x11B ^^^ (gmul (1#8 <<< i) (1#8 <<< j)).toNat := by decide +kernel

theorem clmul_reducesTo_gmul (a b : Byte) : ReducesTo (clmul a.toNat b.toNat) (gmul a b) := by
  induction a, b using byte_induction₂ with
  | pow i hi j hj => exact clmul_powers_reducesTo_gmul i hi j hj
  | xor_left a a' b h h' => rw [BitVec.toNat_xor, clmul_xor_left, gmul_xor_left]; exact h.xor h'
  | xor_right a b b' h h' => rw [BitVec.toNat_xor, clmul_xor_right, gmul_xor_right]; exact h.xor h'

/-- Settles O25: both products are linear in each operand, and reduction respects sums. -/
theorem gmulIsThePolynomialProductReduced : Obligations.GmulIsThePolynomialProductReduced := clmul_reducesTo_gmul

/-! ### The laws of the product (R93, R103) -/

@[simp] theorem gmul_zero_right (a : Byte) : gmul a 0#8 = 0#8 := by
  have h := gmul_xor_right a 0 0
  rwa [BitVec.xor_self, BitVec.xor_self] at h

theorem gmul_comm (a b : Byte) : gmul a b = gmul b a := by
  induction a, b using byte_induction₂ with
  | pow i hi j hj => revert i j; decide
  | xor_left a a' b h h' => rw [gmul_xor_left, gmul_xor_right, h, h']
  | xor_right a b b' h h' => rw [gmul_xor_left, gmul_xor_right, h, h']

@[simp] theorem gmul_zero_left (a : Byte) : gmul 0#8 a = 0#8 := (gmul_comm 0 a).trans (gmul_zero_right a)

@[simp] theorem gmul_one_right (a : Byte) : gmul a 1#8 = a := by
  induction a using byte_induction with
  | zero => rfl
  | pow k hk => revert k; decide
  | xor a a' h h' => rw [gmul_xor_left, h, h']

@[simp] theorem gmul_one_left (a : Byte) : gmul 1#8 a = a := (gmul_comm 1 a).trans (gmul_one_right a)

theorem gmul_assoc_powers :
    ∀ i < 8, ∀ j < 8, ∀ k < 8,
      gmul (gmul (1#8 <<< i) (1#8 <<< j)) (1#8 <<< k) = gmul (1#8 <<< i) (gmul (1#8 <<< j) (1#8 <<< k)) := by
  decide +kernel

theorem gmul_assoc (a b c : Byte) : gmul (gmul a b) c = gmul a (gmul b c) := by
  induction a, b using byte_induction₂ with
  | pow i hi j hj =>
    induction c using byte_induction with
    | zero => simp
    | pow k hk => exact gmul_assoc_powers i hi j hj k hk
    | xor c c' h h' => simp only [gmul_xor_right, h, h']
  | xor_left a a' b h h' => simp only [gmul_xor_left, h, h']
  | xor_right a b b' h h' => simp only [gmul_xor_left, gmul_xor_right, h, h']

/-- Settles O26: range checks, and the laws with the values R93 names. -/
theorem gmulMultipliesFieldElements : Obligations.GmulMultipliesFieldElements := by
  unfold Obligations.GmulMultipliesFieldElements
  refine ⟨fun a b => decode_word_of_operands 0x11 rfl rfl, fun a b s => ⟨fun ha hb => ?_, exec_gmul_of_not_bytes a b s⟩,
    fun a => ⟨gmul_zero_right a, gmul_zero_left a, gmul_one_right a, gmul_one_left a⟩, gmul_comm, by decide⟩
  rw [exec_gmul_of_bytes a b s ha hb, answer_eq, lowByte_eq_setWidth, lowByte_eq_setWidth]

/-! ### Every element but 0 has an inverse (R94)

Since `a^256 = a`, some `t` has `a·(a·t) = a`. Then `a·t` is its own square, and only 0 and 1 are: for `a ≠ 0` it is 1. -/

/-- `a^2`. -/
def square (a : Byte) : Byte := gmul a a

/-- In characteristic 2 squaring is linear. -/
theorem square_xor (a b : Byte) : square (a ^^^ b) = square a ^^^ square b := by
  have cancel : gmul a b ^^^ gmul b a = 0 := by rw [gmul_comm b a]; exact BitVec.xor_self
  calc
    square (a ^^^ b) = square a ^^^ square b ^^^ (gmul a b ^^^ gmul b a) := by
      simp only [square, gmul_xor_left, gmul_xor_right]; ac_rfl
    _ = square a ^^^ square b := by rw [cancel]; exact BitVec.xor_zero

/-- `a^256 = a`: eight squarings are linear, and give each power of `x` back. -/
theorem square_iterate_eight (a : Byte) : square^[8] a = a := by
  induction a using byte_induction with
  | zero => exact Function.iterate_fixed (f := square) (gmul_zero_right 0) 8
  | pow k hk => revert k; decide +kernel
  | xor a b ha hb =>
    have h := Function.Semiconj₂.iterate (f := square) (op := (· ^^^ ·)) square_xor 8 a b
    rwa [ha, hb] at h

/-- Only 0 and 1 are their own squares. -/
theorem eq_zero_or_one_of_square_eq : ∀ e : Byte, square e = e → e = 0 ∨ e = 1 := by decide +kernel

/-- If `a ≠ 0` and `a·(a·t) = a`, then `a·t` is its own square and not 0. -/
theorem gmul_eq_one_of_regular {a t : Byte} (h : a ≠ 0) (ht : gmul a (gmul a t) = a) : gmul a t = 1 := by
  have hsquare : square (gmul a t) = gmul a t := by
    calc
      square (gmul a t) = gmul (gmul a (gmul a t)) t := by
        rw [square, gmul_assoc, gmul_assoc, gmul_comm t (gmul a t)]
      _ = gmul a t := by rw [ht]
  refine (eq_zero_or_one_of_square_eq _ hsquare).resolve_left fun hz => h ?_
  rw [← ht, hz]
  exact gmul_zero_right a

/-- `a^(2^n - 1)`: the product of `n` factors `a`, `a^2`, `a^4`, …, each the square of the one before. -/
def squaresProduct : Nat → Byte → Byte
  | 0, _ => 1
  | n + 1, a => gmul a (squaresProduct n (square a))

theorem gmul_squaresProduct (n : Nat) (a : Byte) : gmul a (squaresProduct n a) = square^[n] a := by
  induction n generalizing a with
  | zero => exact gmul_one_right a
  | succ n ih => rw [squaresProduct, ← gmul_assoc, Function.iterate_succ_apply]; exact ih (square a)

/-- The inverse is `a^254`. -/
theorem exists_inverse {a : Byte} (h : a ≠ 0) : ∃ b, gmul a b = 1 :=
  ⟨_, gmul_eq_one_of_regular h ((gmul_squaresProduct 8 a).trans (square_iterate_eight a))⟩

/-! ### The inverse, and the search for it (R94, R95, R103) -/

/-- Two inverses of one element are equal, since the product is associative. -/
theorem inverse_unique {a b c : Byte} (hb : gmul a b = 1) (hc : gmul a c = 1) : c = b := by
  calc
    c = gmul (gmul b a) c := by rw [gmul_comm b a, hb]; exact (gmul_one_left c).symm
    _ = b := by rw [gmul_assoc, hc]; exact gmul_one_right b

/-- The search finds the inverse, and nothing else. -/
theorem ginv_eq_some_iff {a b : Byte} : ginv a = some b ↔ gmul a b = 1 := by
  refine ⟨gmul_of_ginv a b, fun hb => ?_⟩
  obtain ⟨c, hc⟩ := Option.isSome_iff_exists.1 ((ginv_isSome_iff a).2 ⟨b, hb⟩)
  rw [hc, inverse_unique hb (gmul_of_ginv a c hc)]

theorem ginv_zero : ginv 0 = none :=
  Option.eq_none_iff_forall_ne_some.2 fun b hb => by simpa using ginv_eq_some_iff.1 hb

theorem exists_ginv {a : Byte} (h : a ≠ 0) : ∃ b, ginv a = some b ∧ gmul a b = 1 :=
  (exists_inverse h).imp fun _ hb => ⟨ginv_eq_some_iff.2 hb, hb⟩

/-- Settles O27: every element but 0 has an inverse, and the search finds it. -/
theorem fieldLawsHold : Obligations.FieldLawsHold := ⟨fun _ => exists_ginv, gmul_comm, gmul_zero_right⟩

/-- Settles O28: inverses are unique, and 0 has none. -/
theorem ginvIsTheUniqueInverse : Obligations.GinvIsTheUniqueInverse := by
  unfold Obligations.GinvIsTheUniqueInverse
  refine ⟨fun a ha => ?_, ginv_zero⟩
  obtain ⟨b, hg, hb⟩ := exists_ginv ha
  refine ⟨b, hg, ?_, fun c => ⟨inverse_unique hb, fun hc => hc ▸ hb⟩⟩
  rintro rfl
  simp at hb

/-- Settles O29: `GINV` answers what the search finds; since the product commutes, the inverse's inverse is the operand. -/
theorem ginvAnswersTheInverse : Obligations.GinvAnswersTheInverse := by
  unfold Obligations.GinvAnswersTheInverse
  refine ⟨fun a => decode_word_of_operand 0x12 rfl rfl, fun a s => ⟨fun hpos ha => ?inverse, ?error⟩,
    ginv_eq_some_iff.2 (by decide), ginv_eq_some_iff.2 (by decide), ginv_eq_some_iff.2 (by decide)⟩
  case inverse =>
    have hne : lowByte a ≠ 0 := fun h => by have := (lowByte_eq_zero_iff a ha).1 h; omega
    obtain ⟨v, hg, hv⟩ := exists_ginv hne
    rw [← lowByte_eq_setWidth]
    exact ⟨v, (exec_ginv_of_some a s ha v hg).trans (answer_eq _ _), hv, ginv_eq_some_iff.2 (gmul_comm _ _ ▸ hv)⟩
  case error =>
    rintro (h | h)
    · have hz : lowByte a = 0 := (lowByte_eq_zero_iff a (by omega)).2 h
      exact exec_ginv_of_none a s (hz ▸ ginv_zero)
    · exact exec_ginv_of_not_byte a s h

/-! ### Sums (R96, R97) -/

@[simp] theorem xorsum_nil : xorsum [] = 0 := rfl

@[simp] theorem xorsum_cons (e : Byte) (es : List Byte) : xorsum (e :: es) = e ^^^ xorsum es := by
  rw [xorsum, List.foldl_cons, BitVec.xor_comm, List.foldl_assoc, xorsum]

theorem xorsum_perm {es fs : List Byte} (h : es.Perm fs) : xorsum es = xorsum fs := h.foldl_op_eq

/-- Settles O30: a fold of an associative, commutative operation. -/
theorem xorsumIsAnUnorderedFold : Obligations.XorsumIsAnUnorderedFold := by
  unfold Obligations.XorsumIsAnUnorderedFold
  exact ⟨xorsum_nil, xorsum_cons, fun _ _ => xorsum_perm, fun e => by simp⟩

/-- A bit of the sum is the parity of that bit over the summands. -/
theorem xorsum_getLsbD (es : List Byte) (k : Nat) :
    (xorsum es).getLsbD k = true ↔ es.countP (·.getLsbD k) % 2 = 1 := by
  induction es with
  | nil => simp
  | cons e es ih =>
    rw [xorsum_cons, BitVec.getLsbD_xor, List.countP_cons]
    cases e.getLsbD k
    · simpa using ih
    · simp only [Bool.true_xor, Bool.not_eq_true', if_true, ← Bool.not_eq_true, ih]
      omega

/-- The first `n` of the 32 cell numbers are those below `n`. -/
theorem take_finRange_eq_filter :
    ∀ n : Fin 33, (List.finRange 32).take n.val = (List.finRange 32).filter fun j => decide (j.val < n.val) := by
  decide

/-- The byte sequence in the buffer, by the numbers of its cells (R21). -/
theorem bufBytes_eq_map (s : State) :
    bufBytes s = ((List.finRange 32).filter fun j => decide (j.val < s.len.val)).map fun j => s.buf[j.val] := by
  rw [← take_finRange_eq_filter, List.map_take, bufBytes]
  congr 1
  exact List.ext_getElem (by simp) fun j _ _ => by simp

/-- The byte sequence in the buffer, cell by cell (R21). -/
theorem bufBytes_eq_ofFn (s : State) :
    bufBytes s = List.ofFn fun j : Fin s.len.val => s.buf[j.val]'(by omega) :=
  List.ext_getElem (by simp) fun j _ _ => by simp [bufBytes]

theorem bufBytes_of_empty {s : State} (h : s.len.val = 0) : bufBytes s = [] :=
  List.length_eq_zero_iff.1 ((bufBytes_length s).trans h)

theorem bufBytes_of_single {s : State} (h : s.len.val = 1) : bufBytes s = [s.buf[0]] :=
  List.ext_getElem (by simp [h]) fun j _ hj => by
    obtain rfl : j = 0 := by simpa using hj
    simp [bufBytes]

/-- Settles O31: `XSUM` answers the sum of the byte sequence in the buffer. -/
theorem xsumFoldsTheBuffer : Obligations.XsumFoldsTheBuffer := by
  unfold Obligations.XsumFoldsTheBuffer
  refine ⟨by decide, fun s => ⟨_, (exec_xsum s).trans (answer_eq _ _), ?fold, fun k _ => ?parity, fun h => ?empty,
    fun h => ?single⟩⟩
  case fold => rw [bufBytes_eq_ofFn]
  case parity =>
    rw [xorsum_getLsbD, bufBytes_eq_map, List.countP_map, List.countP_filter]
    simp only [Function.comp_def, Bool.and_comm]
  case empty => rw [bufBytes_of_empty h, xorsum_nil]
  case single => rw [bufBytes_of_single h, xorsum_cons, xorsum_nil]; exact BitVec.xor_zero

/-! ### Products of Words (R98) -/

/-- Coefficient `k` of a product of Words sums `gmul(a[i], b[j])` over all `i + j ≡ k mod 4`. -/
theorem wmul_get (a b : FieldWord) (k : Fin 4) :
    (wmul a b)[k.val] = xorsum ((List.finRange 4).map fun i => gmul a[i.val] b[(k - i).val]) := by
  have four (x y z w : Byte) : xorsum [x, y, z, w] = x ^^^ (y ^^^ (z ^^^ w)) := by simp
  fin_cases k <;> simp [wmul, List.finRange_succ, four] <;> ac_rfl

/-- With the index counted down from `k`, a sum over all four indices is the same sum. -/
theorem finRange_map_sub_perm : ∀ k : Fin 4, ((List.finRange 4).map (k - ·)).Perm (List.finRange 4) := by decide

theorem wmul_comm (a b : FieldWord) : wmul a b = wmul b a := by
  refine Vector.ext fun k hk => ?_
  rw [wmul_get a b ⟨k, hk⟩, wmul_get b a ⟨k, hk⟩, ← xorsum_perm ((finRange_map_sub_perm ⟨k, hk⟩).map _), List.map_map]
  simp only [Function.comp_def, sub_sub_cancel, gmul_comm]

theorem fieldWord_eta (b : FieldWord) : #v[b[0], b[1], b[2], b[3]] = b := by
  refine Vector.ext fun k hk => ?_
  match k, hk with
  | 0, _ | 1, _ | 2, _ | 3, _ => rfl

/-- Settles O32: the convolution, and its sums for the Words `1` and `x`. -/
theorem wmulIsTheCyclicConvolution : Obligations.WmulIsTheCyclicConvolution := by
  unfold Obligations.WmulIsTheCyclicConvolution
  refine ⟨wmul_get, wmul_comm, fun b => ?one, fun b => ?x⟩
  case one => exact Eq.trans (by simp [wmul]) (fieldWord_eta b)
  case x => simp [wmul]

/-! ### The Word commands (R99, R100, R101) -/

/-- Settles O33: with four bytes in the buffer each command writes its own register; else it raises. -/
theorem loadWordCommandsCopyTheBuffer : Obligations.LoadWordCommandsCopyTheBuffer := by
  unfold Obligations.LoadWordCommandsCopyTheBuffer
  refine ⟨by decide, by decide, fun s => ⟨fun h => ⟨?ldwa, ?ldwb⟩, fun h =>
    ⟨exec_ldwa_of_not_word s h, exec_ldwb_of_not_word s h⟩⟩⟩
  case ldwa =>
    exact ⟨_, (exec_ldwa_of_word s h).trans (answer_eq _ _), bufWord_get s, rfl, ⟨rfl, rfl⟩, rfl, ⟨rfl, rfl⟩, ⟨rfl, rfl⟩,
      rfl⟩
  case ldwb =>
    exact ⟨_, (exec_ldwb_of_word s h).trans (answer_eq _ _), bufWord_get s, rfl, ⟨rfl, rfl⟩, rfl, ⟨rfl, rfl⟩, ⟨rfl, rfl⟩,
      rfl⟩

/-- Settles O34: `WMUL` answers in every state, and stores the product (`storeWord`). -/
theorem wmulReplacesTheBuffer : Obligations.WmulReplacesTheBuffer := by
  unfold Obligations.WmulReplacesTheBuffer
  refine ⟨by decide, fun s => ⟨_, (exec_wmul s).trans (answer_eq _ _), ?_⟩⟩
  simp [KeepsMatrix, KeepsWords, KeepsTable, KeepsHostSide, Answered]

end Sys2Proof.Machine

/-! ## The S-box (spec/42_sbox.md): its function, its table, and the commands that read it

`sboxvalue` is the affine step (`affine`) after the inverse step (`sboxInverse`). The field product alone says what the
inverse step gives (`sboxInverse_of_gmul`), so it is an involution; the affine step has an inverse
(`affine_leftInverse`). What `EnsureSbox()` leaves and keeps is said once for an answer after it (`answer_ensureSbox`). -/
namespace Sys2Proof.Machine

/-! ### The inverse step (R110) -/

theorem sboxInverse_zero : sboxInverse 0 = 0 := by rw [sboxInverse, ginv_zero]

/-- The inverse step gives the inverse, if there is one. -/
theorem sboxInverse_of_gmul {x b : Byte} (h : gmul x b = 1) : sboxInverse x = b := by
  rw [sboxInverse, ginv_eq_some_iff.2 h]

theorem gmul_sboxInverse {x : Byte} (h : x ≠ 0) : gmul x (sboxInverse x) = 1 := by
  obtain ⟨b, hb⟩ := exists_inverse h
  rwa [sboxInverse_of_gmul hb]

/-- The inverse's inverse is the element, and 0 stands for its own. -/
theorem sboxInverse_involutive : Function.Involutive sboxInverse := fun x => by
  by_cases hx : x = 0
  · rw [hx, sboxInverse_zero, sboxInverse_zero]
  · exact sboxInverse_of_gmul ((gmul_comm _ _).trans (gmul_sboxInverse hx))

/-! ### The affine step, and `sboxvalue` (R110) -/

/-- The affine transform, all bits at once. -/
def affine (inv : Byte) : Byte := byteOfBits (affineBit inv)

theorem sboxvalue_eq_affine (h l : Nibble) : sboxvalue h l = affine (sboxInverse (composeByte h l)) := rfl

/-- Bit `i` of what the affine transform takes to `y`: the XOR of bits `i + 2`, `i + 5`, `i + 7` of `y` and bit `i` of
`0x05`. -/
def inverseAffineBit (y : Byte) (i : Nat) : Bool :=
  y.getLsbD ((i + 2) % 8) ^^ y.getLsbD ((i + 5) % 8) ^^ y.getLsbD ((i + 7) % 8) ^^ (0x05#8).getLsbD i

theorem affine_leftInverse : Function.LeftInverse (fun y => byteOfBits (inverseAffineBit y)) affine := by
  unfold Function.LeftInverse
  decide

/-- An injective map on the bytes is onto. -/
theorem affine_bijective : Function.Bijective affine :=
  Finite.injective_iff_bijective.1 affine_leftInverse.injective

/-- Settles O36: the inverse step and the affine step are bijections. -/
theorem sboxvalueIsABijection : Obligations.SboxvalueIsABijection := by
  unfold Obligations.SboxvalueIsABijection
  simpa [sboxvalue_eq_affine, Function.comp_def] using affine_bijective.comp sboxInverse_involutive.bijective

theorem ofNat_eq_composeByte (h l : Nibble) : BitVec.ofNat 8 (16 * h.toNat + l.toNat) = composeByte h l := by
  rw [← composeByte_toNat, BitVec.ofNat_toNat, BitVec.setWidth_eq]

theorem composeByte_eq_zero_iff (h l : Nibble) : composeByte h l = 0 ↔ 16 * h.toNat + l.toNat = 0 := by
  rw [← BitVec.toNat_inj, composeByte_toNat]; rfl

/-- Settles O35: the byte is what the inverse step gives. -/
theorem sboxvalueIsTheAffineInverse : Obligations.SboxvalueIsTheAffineInverse := by
  unfold Obligations.SboxvalueIsTheAffineInverse
  refine ⟨fun h l => ⟨sboxInverse (composeByte h l), fun hz => ?zero, fun hne => ?inverse,
    fun k hk => byteOfBits_getLsbD _ k hk⟩, ?anchor0, ?anchor1⟩
  case zero => rw [(composeByte_eq_zero_iff h l).2 hz, sboxInverse_zero]
  case inverse =>
    rw [ofNat_eq_composeByte]
    exact gmul_sboxInverse (mt (composeByte_eq_zero_iff h l).1 hne)
  case anchor0 => exact (congrArg affine sboxInverse_zero).trans (by decide)
  case anchor1 => exact (congrArg affine (sboxInverse_of_gmul (gmul_one_right 1))).trans (by decide)

/-! ### Answers after `EnsureSbox()` (R112) -/

/-- An answer after `EnsureSbox()` leaves the ensured table, and everything else as it was. -/
theorem answer_ensureSbox (v : Byte) (s : State) :
    ∃ t, answer v (ensureSbox s) = .next t ∧ KeepsTable (ensureSbox s) t ∧ TableEnsured s t ∧
      KeepsBuffer s t ∧ KeepsMatrix s t ∧ KeepsWords s t ∧ KeepsHostSide s t ∧ Answered s t .ok v :=
  ⟨_, answer_eq v _, ⟨rfl, rfl⟩, ensureSbox_ensures s, ⟨ensureSbox_buf s, ensureSbox_len s⟩, ensureSbox_s s,
    ⟨ensureSbox_wa s, ensureSbox_wb s⟩, ⟨ensureSbox_pending s, ensureSbox_resets s⟩,
    congrArg (· ++ _) (ensureSbox_responses s)⟩

theorem entry_of_keepsTable {s t : State} (h : KeepsTable s t) (x : Byte) : entry t x = entry s x := by
  simp only [entry, h.1]

/-- In a sound state the ensured table holds the S-box function. -/
theorem entry_ensureSbox_of_tableOk {s : State} (h : TableOk s) (x : Byte) :
    entry (ensureSbox s) x = sboxvalue (hiNib x) (loNib x) :=
  ensureSbox_tableOk s h (ensureSbox_sbv s) x

/-! ### The commands (R111, R113, R114, R115, R130) -/

/-- Settles O37: for nibbles `SBOXV` answers and writes nothing; else it raises. -/
theorem sboxvAnswersTheFunction : Obligations.SboxvAnswersTheFunction := by
  unfold Obligations.SboxvAnswersTheFunction
  refine ⟨fun h l => decode_word_of_operands 0x20 rfl rfl, fun h l s =>
    ⟨fun hh hl => ?_, exec_sboxv_of_not_nibbles h l s⟩⟩
  rw [exec_sboxv_of_nibbles h l s hh hl, answer_eq, lowNibble_eq_setWidth, lowNibble_eq_setWidth]

/-- Settles O38: `SBGEN` is `EnsureSbox()`, which does nothing once the table is built. -/
theorem sbgenBuildsTheTableOnce : Obligations.SbgenBuildsTheTableOnce := by
  unfold Obligations.SbgenBuildsTheTableOnce
  refine ⟨by decide, fun s => ?_⟩
  obtain ⟨t, ht, -, hensured, hbuf, hmatrix, hwords, hhost, hrsp⟩ := answer_ensureSbox 0 s
  refine ⟨t, (exec_sbgen s).trans ht, hensured, hbuf, hmatrix, hwords, hhost, hrsp, ?_⟩
  rw [exec_sbgen, ensureSbox_of_built t hensured.1, answer_eq]

/-- Settles O39: for nibbles `SBRD` answers the entry of the ensured table; else it raises before building it. -/
theorem sbrdReadsTheTable : Obligations.SbrdReadsTheTable := by
  unfold Obligations.SbrdReadsTheTable
  refine ⟨fun h l => decode_word_of_operands 0x22 rfl rfl, fun h l s =>
    ⟨fun hh hl => ?_, exec_sbrd_of_not_nibbles h l s⟩⟩
  obtain ⟨t, ht, htable, hframe⟩ :=
    answer_ensureSbox (entry (ensureSbox s) (composeByte (lowNibble h) (lowNibble l))) s
  refine ⟨t, (exec_sbrd_of_nibbles h l s hh hl).trans ht, ?_⟩
  rwa [← lowNibble_toNat h hh, ← lowNibble_toNat l hl, ofNat_eq_composeByte, entry_of_keepsTable htable]

/-- Settles O40: both raise for what is no nibble; else the entry in the ensured table is the function's value. -/
theorem sbrdAnswersLikeSboxv : Obligations.SbrdAnswersLikeSboxv := by
  unfold Obligations.SbrdAnswersLikeSboxv
  intro h l s hs
  by_cases g : 15 < h.toNat ∨ 15 < l.toNat
  · exact ⟨_, _, _, exec_sbrd_of_not_nibbles h l s g, exec_sboxv_of_not_nibbles h l s g, rfl, rfl⟩
  · have hsbrd := exec_sbrd_of_nibbles h l s (by omega) (by omega)
    rw [entry_ensureSbox_of_tableOk hs, hiNib_composeByte, loNib_composeByte] at hsbrd
    obtain ⟨t, ht, -, -, ⟨-, hlen⟩, -, -, -, hrsp⟩ :=
      answer_ensureSbox (sboxvalue (lowNibble h) (lowNibble l)) s
    exact ⟨t, _, _, hsbrd.trans ht, (exec_sboxv_of_nibbles h l s (by omega) (by omega)).trans (answer_eq _ _),
      hlen ▸ hrsp, rfl⟩

/-- Settles O49: `SUB` looks every cell up in the ensured table. -/
theorem subAppliesTheSboxFunction : Obligations.SubAppliesTheSboxFunction := by
  unfold Obligations.SubAppliesTheSboxFunction
  intro s hs
  refine ⟨_, (exec_sub s).trans (answer_eq _ _), fun r c => ?_⟩
  rw [cell_substituteBytes, ensureSbox_s, entry_ensureSbox_of_tableOk hs]

end Sys2Proof.Machine

/-! ## The State Matrix Codec (spec/43_state_codec.md): `LDST` and `RDST`

Both commands move the cell in row `r`, column `c` to or from the place `r + 4c` of the Block. Each of the sixteen places is
such an `r + 4c` (`buffer_ext_by_columns`, R44), so the round trip follows from what the two commands do (R122). -/
namespace Sys2Proof.Machine

/-! ### The map `r + 4c` (R44) -/

/-- Place `r + 4c` of the Block read from a matrix is the cell in row `r`, column `c`. -/
theorem readState_get_mapped (m : StateMatrix) (r c : Fin 4) : (readState m)[r.val + 4 * c.val] = cell m r c := by
  have hrow : (r.val + 4 * c.val) % 4 = r.val := by omega
  have hcolumn : (r.val + 4 * c.val) / 4 = c.val := by omega
  simp only [readState_get, hrow, hcolumn]

/-- Two buffers with the same bytes at the places `r + 4c`, and the same cells from 16 on, are the same buffer. -/
theorem buffer_ext_by_columns {a b : Vector Byte 32}
    (hblock : ∀ r c : Fin 4, a[r.val + 4 * c.val] = b[r.val + 4 * c.val])
    (hrest : ∀ (j : Nat) (h : j < 32), 16 ≤ j → a[j] = b[j]) : a = b := by
  refine Vector.ext fun j hj => ?_
  by_cases h : j < 16
  · simpa only [Nat.mod_add_div] using hblock ⟨j % 4, by omega⟩ ⟨j / 4, by omega⟩
  · exact hrest j hj (by omega)

/-! ### The codec commands (R120, R121, R122) -/

/-- Settles O45: with a Block in the buffer `LDST` answers and writes `S` alone; else it raises. -/
theorem ldstLoadsByColumns : Obligations.LdstLoadsByColumns := by
  unfold Obligations.LdstLoadsByColumns
  refine ⟨by decide, fun s => ⟨fun h => ?_, exec_ldst_of_not_block s⟩⟩
  refine ⟨_, (exec_ldst_of_block s h).trans (answer_eq _ _), fun r c => ?cell,
    ⟨rfl, rfl⟩, ⟨rfl, rfl⟩, ⟨rfl, rfl⟩, ⟨rfl, rfl⟩, rfl⟩
  case cell => rw [cell_loadState, bufBlock_get]

/-- Settles O46: `RDST` answers in every state, and stores the Block read from `S` (`storeBlock`). -/
theorem rdstReadsByColumns : Obligations.RdstReadsByColumns := by
  unfold Obligations.RdstReadsByColumns
  refine ⟨by decide, fun s => ⟨_, (exec_rdst s).trans (answer_eq _ _), ?len, fun r c => ?block,
    fun j hj h16 => ?rest, ?frame⟩⟩
  case len => rw [storeBlock_len]; rfl
  case block => rw [storeBlock_buf, dif_pos (by omega), readState_get_mapped]
  case rest => rw [storeBlock_buf, dif_neg (by omega)]
  case frame => simp [KeepsMatrix, KeepsWords, KeepsTable, KeepsHostSide, Answered]

/-- Settles O47: the second command puts back what the first one took, where it took it from. -/
theorem codecRoundTrips : Obligations.CodecRoundTrips := by
  unfold Obligations.CodecRoundTrips
  refine ⟨fun s h => ?block, fun s => ?matrix⟩
  case block =>
    obtain ⟨t, hldst, hload, ⟨hbuf, -⟩, -⟩ := (ldstLoadsByColumns.2 s).1 h
    obtain ⟨u, hrdst, hlen, hread, hrest, -⟩ := rdstReadsByColumns.2 t
    refine ⟨t, u, hldst, hrdst, buffer_ext_by_columns (fun r c => ?_) fun j hj h16 => ?_, Fin.ext (hlen.trans h.symm)⟩
    · rw [hread, hload]
    · rw [hrest j hj h16, hbuf]
  case matrix =>
    obtain ⟨t, hrdst, hlen, hread, -⟩ := rdstReadsByColumns.2 s
    obtain ⟨u, hldst, hload, -⟩ := (ldstLoadsByColumns.2 t).1 hlen
    exact ⟨t, u, hrdst, hldst, matrix_ext _ _ fun r c => (hload r c).trans (hread r c)⟩

end Sys2Proof.Machine

/-! ## The round transforms (spec/44_round_transforms.md): `SUB`, `SHR` and `MIX`

Each command answers after one new matrix. For `SHR` and `MIX` the new matrix is a function of the old one alone
(`exec_updates_matrix`); for `SUB` of the old one and the ensured table (`substituteBytes_congr`). -/
namespace Sys2Proof.Machine

/-- An answer after a new matrix leaves that matrix, and everything else as it was. -/
theorem answer_matrix (m : StateMatrix) (s : State) :
    ∃ t, answer 0 { s with s := m } = .next t ∧ t.s = m ∧ KeepsBuffer s t ∧ KeepsWords s t ∧ KeepsTable s t ∧
      KeepsHostSide s t ∧ Answered s t .ok 0 :=
  ⟨_, answer_eq _ _, rfl, ⟨rfl, rfl⟩, ⟨rfl, rfl⟩, ⟨rfl, rfl⟩, ⟨rfl, rfl⟩, rfl⟩

/-! ### `SUB` (R130) -/

/-- Settles O48: `SUB` looks every cell up in the ensured table, which it leaves. -/
theorem subSubstitutesEveryCell : Obligations.SubSubstitutesEveryCell := by
  unfold Obligations.SubSubstitutesEveryCell
  refine ⟨by decide, fun s => ⟨_, (exec_sub s).trans (answer_eq _ _), ensureSbox_ensures s, fun r c => ?cell,
    ⟨ensureSbox_buf s, ensureSbox_len s⟩, ⟨ensureSbox_wa s, ensureSbox_wb s⟩,
    ⟨ensureSbox_pending s, ensureSbox_resets s⟩, congrArg (· ++ _) (ensureSbox_responses s)⟩⟩
  case cell => rw [cell_substituteBytes, ensureSbox_s]; rfl

/-! ### `SHR` (R131) -/

/-- A row's rotation by its number, four times over, is none. -/
theorem shiftRows_iterate_four (m : StateMatrix) : shiftRows^[4] m = m := by
  have whole_turn : ∀ r c : Fin 4, c + r + r + r + r = c := by decide
  exact matrix_ext _ _ fun r c => by simp [whole_turn]

/-- Settles O50: `SHR` rotates the rows and writes nothing else. -/
theorem shrRotatesRowsLeft : Obligations.ShrRotatesRowsLeft := by
  unfold Obligations.ShrRotatesRowsLeft
  refine ⟨by decide, fun s => ?rotates, fun s => ?restores⟩
  case rotates =>
    obtain ⟨t, ht, hmatrix, hframe⟩ := answer_matrix (shiftRows s.s) s
    exact ⟨t, (exec_shr s).trans ht, fun r c => by rw [hmatrix, cell_shiftRows], hframe⟩
  case restores =>
    exact ⟨_, _, _, _, (exec_shr _).trans (answer_eq _ _), (exec_shr _).trans (answer_eq _ _),
      (exec_shr _).trans (answer_eq _ _), (exec_shr _).trans (answer_eq _ _), shiftRows_iterate_four s.s⟩

/-! ### `MIX` (R132) -/

/-- The row formulas are the product with the fixed Word, since its coefficients 01 are the identity. -/
theorem mixColumn_eq_wmul (r0 r1 r2 r3 : Byte) :
    mixColumn r0 r1 r2 r3 = wmul #v[0x02, 0x01, 0x01, 0x03] #v[r0, r1, r2, r3] := by
  simp [mixColumn, wmul, BitVec.xor_assoc]

/-- A common factor comes out of a sum. -/
theorem xorsum_map_gmul (es : List Byte) (v : Byte) : xorsum (es.map (gmul · v)) = gmul (xorsum es) v := by
  induction es with
  | nil => exact (gmul_zero_left v).symm
  | cons e es ih => rw [List.map_cons, xorsum_cons, ih, xorsum_cons, gmul_xor_left]

/-- A Word times four equal bytes `v`: each coefficient is `v` times the sum of the Word's coefficients. -/
theorem wmul_replicate (a : FieldWord) (v : Byte) (k : Fin 4) :
    (wmul a (.replicate 4 v))[k.val] = gmul (xorsum ((List.finRange 4).map fun i => a[i.val])) v := by
  simp only [wmul_get, Vector.getElem_replicate, ← xorsum_map_gmul, List.map_map, Function.comp_def]

/-- A column of four equal bytes is unchanged: the fixed coefficients sum to 01. -/
theorem mixColumn_const (v : Byte) (r : Fin 4) : (mixColumn v v v v)[r.val] = v := by
  have hsum : xorsum ((List.finRange 4).map fun i => (#v[0x02, 0x01, 0x01, 0x03] : FieldWord)[i.val]) = 1 := by decide
  calc
    (mixColumn v v v v)[r.val] = (wmul #v[0x02, 0x01, 0x01, 0x03] (.replicate 4 v))[r.val] := by
      rw [mixColumn_eq_wmul]; rfl
    _ = v := by rw [wmul_replicate, hsum]; exact gmul_one_left v

/-- Settles O51: `MIX` writes `mixColumn` of every column and nothing else. -/
theorem mixMultipliesEveryColumn : Obligations.MixMultipliesEveryColumn := by
  unfold Obligations.MixMultipliesEveryColumn
  refine ⟨by decide, fun s => ?_⟩
  obtain ⟨t, ht, hmatrix, hframe⟩ := answer_matrix (mixColumns s.s) s
  have hcell (r c : Fin 4) : cell t.s r c =
      (mixColumn (cell s.s 0 c) (cell s.s 1 c) (cell s.s 2 c) (cell s.s 3 c))[r.val] := by
    rw [hmatrix, cell_mixColumns]
  refine ⟨t, (exec_mix s).trans ht, fun c => ⟨hcell 0 c, hcell 1 c, hcell 2 c, hcell 3 c⟩, fun c => ?product,
    fun c hc r => ?const, hframe⟩
  case product =>
    rw [← mixColumn_eq_wmul, hcell, hcell, hcell, hcell]
    exact fieldWord_eta _
  case const => rw [hcell, hc 1, hc 2, hc 3, mixColumn_const, hc r]

/-! ### What the transforms read and write (R133) -/

/-- `SHR` and `MIX` answer after a new matrix that depends on the old one alone. -/
theorem exec_updates_matrix {i : Instr} (h : i = .shr ∨ i = .mix) :
    ∃ f : StateMatrix → StateMatrix, ∀ s, exec i s = answer 0 { s with s := f s.s } := by
  obtain rfl | rfl := h
  · exact ⟨shiftRows, exec_shr⟩
  · exact ⟨mixColumns, exec_mix⟩

/-- `SUB`'s new matrix depends on the old one and the table alone. -/
theorem substituteBytes_congr {s t : State} (hmatrix : t.s = s.s) (htable : t.sbox = s.sbox) :
    substituteBytes t = substituteBytes s :=
  matrix_ext _ _ fun r c => by simp only [cell_substituteBytes, entry, hmatrix, htable]

/-- Settles O52: the new matrix, and for `SUB` the ensured table, are made from what the command may read. -/
theorem roundTransformsActOnTheMatrixOnly : Obligations.RoundTransformsActOnTheMatrixOnly := by
  unfold Obligations.RoundTransformsActOnTheMatrixOnly
  rintro i s (rfl | hi)
  case inl =>
    refine ⟨_, (exec_sub s).trans (answer_eq _ _), ⟨ensureSbox_buf s, ensureSbox_len s⟩,
      ⟨ensureSbox_wa s, ensureSbox_wb s⟩, fun h => absurd rfl h, fun b n x y box v hbox => ?_⟩
    obtain ⟨rfl, rfl⟩ := hbox rfl
    refine ⟨_, (exec_sub _).trans (answer_eq _ _), substituteBytes_congr (by simp) (by simp), ?_⟩
    simp [KeepsTable]
  case inr =>
    have hne : i ≠ .sub := by rintro rfl; simp at hi
    obtain ⟨f, hf⟩ := exec_updates_matrix hi
    exact ⟨_, (hf s).trans (answer_eq _ _), ⟨rfl, rfl⟩, ⟨rfl, rfl⟩, fun _ => ⟨rfl, rfl⟩, fun b n x y box v _ =>
      ⟨_, (hf _).trans (answer_eq _ _), rfl, rfl, rfl, rfl, rfl, fun h => absurd h hne, fun _ => ⟨rfl, rfl⟩⟩⟩

end Sys2Proof.Machine

/-! ## Doubling (spec/45_doubling.md): `dbl`, `DBL` and `DBLX`

Byte `k` of the doubled Block is byte `k` shifted left with the top bit of byte `k + 1` coming in. As a number, a byte gives
up as much as its neighbour above takes in, so over the first `k` bytes only the two ends show: the bit shifted out of byte
0 and the bit that comes in from byte `k` (`prefixValue_dbl`). After all sixteen bytes no bit comes in (R47, R140). -/
namespace Sys2Proof.Machine

/-! ### The bits between the bytes (R140) -/

/-- The top bit of byte `k`; past the last byte, 0. -/
def topBit (b : Block) (k : Nat) : Bool := if h : k < 16 then b[k].getLsbD 7 else false

theorem dbl_carry_eq_topBit (b : Block) : (dbl b).2 = topBit b 0 := dbl_carry b

theorem dbl_get_eq_topBit (b : Block) (k : Nat) (h : k < 16) :
    (dbl b).1[k] = b[k] <<< 1 ||| byteOfBool (topBit b (k + 1)) := by
  by_cases hk : k < 15
  · have hnext : k + 1 < 16 := by omega
    rw [dbl_get b k hk, ← byteOfBool_getLsbD_seven, topBit, dif_pos hnext]
  · obtain rfl : k = 15 := by omega
    rw [dbl_get_last]
    exact BitVec.or_zero.symm

/-- One byte as a number: doubling it, with the bit `c` coming in, is the shifted byte and the bit shifted out. -/
theorem shiftIn_toNat (x : Byte) (c : Bool) :
    (x <<< 1 ||| byteOfBool c).toNat + 256 * (x.getLsbD 7).toNat = 2 * x.toNat + c.toNat := by
  revert x c; decide

/-! ### A Block as a number (R47) -/

/-- The number that the first `k` bytes of a Block make, byte 0 most significant. -/
def prefixValue (b : Block) (k : Nat) : Nat := (b.toList.take k).foldl (fun v x => v * 256 + x.toNat) 0

@[simp] theorem prefixValue_zero (b : Block) : prefixValue b 0 = 0 := rfl

theorem prefixValue_succ (b : Block) (k : Nat) (h : k < 16) :
    prefixValue b (k + 1) = prefixValue b k * 256 + b[k].toNat := by
  have hk : k < b.toList.length := by simpa using h
  simp [prefixValue, List.take_succ_eq_append_getElem hk]

theorem prefixValue_sixteen (b : Block) : prefixValue b 16 = blockValue b := by
  rw [prefixValue, List.take_of_length_le (by simp), blockValue]

theorem prefixValue_lt (b : Block) (k : Nat) (h : k ≤ 16) : prefixValue b k < 256 ^ k := by
  induction k with
  | zero => simp
  | succ k ih =>
    have := ih (by omega)
    have := b[k].isLt
    rw [prefixValue_succ b k h, pow_succ]
    omega

theorem blockValue_lt (b : Block) : blockValue b < 2 ^ 128 := prefixValue_sixteen b ▸ prefixValue_lt b 16 le_rfl

/-! ### The doubled Block as a number (R140) -/

/-- The first `k` bytes doubled: the bit that leaves at byte 0 on one side, the bit that comes in from byte `k` on the
other. -/
theorem prefixValue_dbl (b : Block) (k : Nat) (h : k ≤ 16) :
    prefixValue (dbl b).1 k + 256 ^ k * (topBit b 0).toNat = 2 * prefixValue b k + (topBit b k).toNat := by
  induction k with
  | zero => simp
  | succ k ih =>
    have hprefix := ih (by omega)
    have hbyte := shiftIn_toNat b[k] (topBit b (k + 1))
    have htop : topBit b k = b[k].getLsbD 7 := dif_pos h
    rw [htop] at hprefix
    rw [prefixValue_succ _ k h, prefixValue_succ _ k h, dbl_get_eq_topBit b k h, pow_succ, mul_right_comm]
    omega

/-- The doubled Block and the bit shifted out are twice the Block. -/
theorem blockValue_dbl (b : Block) :
    blockValue (dbl b).1 + 2 ^ 128 * (dbl b).2.toNat = 2 * blockValue b := by
  have h := prefixValue_dbl b 16 le_rfl
  rwa [prefixValue_sixteen, prefixValue_sixteen, ← dbl_carry_eq_topBit] at h

/-- Settles O53: a number below `2^128` with `carry · 2^128` on top is twice the Block's value. -/
theorem dblDoublesTheNumber : Obligations.DblDoublesTheNumber := by
  unfold Obligations.DblDoublesTheNumber
  intro b
  have hdouble := blockValue_dbl b
  have hlt := blockValue_lt (dbl b).1
  have hcarry := Bool.toNat_le (dbl b).2
  refine ⟨by omega, ?_, blockValue_lt b⟩
  rw [← Bool.toNat_eq_one]
  omega

/-! ### The doubling commands (R141, R142) -/

/-- An answer after a new Block leaves that Block in the cells below 16, and everything else as it was. -/
theorem answer_writeBlock (v : Byte) (b : Block) (s : State) :
    ∃ t, answer v (writeBlock b s) = .next t ∧ (∀ (j : Nat) (h : j < 16), t.buf[j] = b[j]) ∧
      (∀ (j : Nat) (h : j < 32), 16 ≤ j → t.buf[j] = s.buf[j]) ∧ t.len = s.len ∧ KeepsMatrix s t ∧ KeepsWords s t ∧
      KeepsTable s t ∧ KeepsHostSide s t ∧ Answered s t .ok v := by
  refine ⟨_, answer_eq v _, fun j hj => ?block, fun j hj h16 => ?rest, ?len, ?frame⟩
  case block => rw [writeBlock_buf, dif_pos hj]
  case rest => rw [writeBlock_buf, dif_neg (by omega)]
  case len => rw [writeBlock_len]
  case frame => simp [KeepsMatrix, KeepsWords, KeepsTable, KeepsHostSide, Answered]

section BufferBlock
variable (s : State)

/-- Both commands answer the old top bit of `BUF[0]`. -/
theorem byteOfBool_dbl_carry : byteOfBool (dbl (bufBlock s)).2 = s.buf[0] >>> 7 := by
  rw [dbl_carry, byteOfBool_getLsbD_seven, bufBlock_get]

theorem dbl_bufBlock_get (j : Nat) (h : j < 15) :
    (dbl (bufBlock s)).1[j] = s.buf[j] <<< 1 ||| s.buf[j + 1] >>> 7 := by
  rw [dbl_get _ j h, bufBlock_get, bufBlock_get]

theorem dbl_bufBlock_get_last : (dbl (bufBlock s)).1[15] = s.buf[15] <<< 1 := by
  rw [dbl_get_last, bufBlock_get]

end BufferBlock

/-- Settles O54: with a Block in the buffer `DBL` answers and writes the shifted Block; else it raises. -/
theorem dblShiftsTheBlock : Obligations.DblShiftsTheBlock := by
  unfold Obligations.DblShiftsTheBlock
  refine ⟨by decide, fun s => ⟨fun h => ?_, exec_dbl_of_not_block s⟩⟩
  obtain ⟨t, ht, hblock, hframe⟩ := answer_writeBlock (s.buf[0] >>> 7) (dbl (bufBlock s)).1 s
  rw [← byteOfBool_dbl_carry, ← exec_dbl_of_block s h] at ht
  refine ⟨t, ht, fun j hj => ?shifted, ?last, hframe⟩
  case shifted => rw [hblock j (by omega), dbl_bufBlock_get s j hj]
  case last => rw [hblock 15 (by decide), dbl_bufBlock_get_last]

/-- The conditional XOR leaves the bytes before the last as they are. -/
theorem xorOnCarry_get (n : Block) (carry : Bool) (j : Nat) (h : j < 15) : (xorOnCarry n carry)[j] = n[j] := by
  cases carry
  · rfl
  · exact Vector.getElem_set_ne (by decide) _ (by omega)

theorem xorOnCarry_get_last (n : Block) : (xorOnCarry n true)[15] = n[15] ^^^ 0x87 :=
  Vector.getElem_set_self (by decide)

/-- The shift has cleared bit 0, so the constant sets it. -/
theorem shiftLeft_xor_dblConst_getLsbD_zero (x : Byte) : (x <<< 1 ^^^ 0x87).getLsbD 0 = true := by simp

/-- Settles O55: `DBLX` differs from `DBL` in the conditional XOR alone. -/
theorem dblxDoublesWithTheConstant : Obligations.DblxDoublesWithTheConstant := by
  unfold Obligations.DblxDoublesWithTheConstant
  refine ⟨by decide, fun s => ⟨fun h => ?_, exec_dblx_of_not_block s⟩⟩
  obtain ⟨t, ht, hblock, hframe⟩ := answer_writeBlock (s.buf[0] >>> 7)
    (xorOnCarry (dbl (bufBlock s)).1 (dbl (bufBlock s)).2) s
  rw [← byteOfBool_dbl_carry, ← exec_dblx_of_block s h] at ht
  have hcarry : (dbl (bufBlock s)).2 = s.buf[0].getLsbD 7 := by rw [dbl_carry, bufBlock_get]
  refine ⟨t, ht, fun j hj => ?shifted, fun h0 => ?unchanged, fun h1 => ?xored, hframe⟩
  case shifted => rw [hblock j (by omega), xorOnCarry_get _ _ j hj, dbl_bufBlock_get s j hj]
  case unchanged =>
    rw [hblock 15 (by decide), hcarry, h0]
    exact dbl_bufBlock_get_last s
  case xored =>
    have hlast : t.buf[15] = s.buf[15] <<< 1 ^^^ 0x87 := by
      rw [hblock 15 (by decide), hcarry, h1, xorOnCarry_get_last, dbl_bufBlock_get_last]
    exact ⟨hlast, hlast ▸ shiftLeft_xor_dblConst_getLsbD_zero _⟩

end Sys2Proof.Machine

/-! ## Exceptions (spec/60_exceptions.md): totality, no effect on error, causes, priority

An exception is an ordinary answer (R166), so every statement here is about the one response that a presented word gets.
`AnsweredWith` names its outcome; `exec_answeredWith_errorOf` holds the outcome of every command to the table of R151. -/
namespace Sys2Proof.Machine

/-! ### Every word is answered (R164) -/

/-- A presented word ends in a next state with one response more and the host's moves to come as they were. -/
theorem runCommand_answers (w : Cmd) (s : State) :
    ∃ t r, runCommand w s = .next t ∧ t.pending = s.pending ∧ t.responses = s.responses ++ [r] := by
  rcases runCommand_raises_or_answers w s with ⟨e, -, he⟩ | ⟨v, t, ha, hrs, hpending, -⟩
  · exact ⟨_, _, he.trans (raise_eq e s), rfl, rfl⟩
  · exact ⟨_, _, ha.trans (answer_eq v t), hpending, congrArg (· ++ _) hrs⟩

/-- Settles O11: the engine waits, answers the word, or resets. -/
theorem everyWordIsAnswered : Obligations.EveryWordIsAnswered := by
  unfold Obligations.EveryWordIsAnswered
  refine ⟨fun s => ?_, fun s w rest hp => step_of_command hp ▸ runCommand_answers w { s with pending := rest }⟩
  rcases step_cases s with ⟨-, hs⟩ | ⟨w, rest, -, hs⟩ | ⟨rest, -, hs⟩
  · exact ⟨s, hs⟩
  · obtain ⟨t, -, ht, -⟩ := runCommand_answers w { s with pending := rest }
    exact ⟨t, hs.trans ht⟩
  · exact ⟨_, hs.trans (hostReset_eq _)⟩

/-! ### An error changes nothing (R152) -/

/-- Settles O12: a response with `ERR ≠ 0` is that of an exception, which writes nothing; an answer has `ERR = 0`. -/
theorem errorsChangeNothing : Obligations.ErrorsChangeNothing := by
  unfold Obligations.ErrorsChangeNothing
  intro s t w rest r hp ht hr hne
  rw [step_of_command hp] at ht
  rcases runCommand_raises_or_answers w { s with pending := rest } with ⟨e, -, he⟩ | ⟨v, u, ha, hrs, -⟩
  · rw [he, raise_eq_next_iff] at ht
    obtain rfl : packRsp e s.len 0 = r := by simpa [ht, raised] using hr
    exact ⟨rspVal_packRsp e s.len 0, ht⟩
  · rw [ha, answer_eq_next_iff] at ht
    obtain rfl : packRsp .ok u.len v = r := by simpa [ht, hrs] using hr
    exact absurd (rspErr_packRsp .ok u.len v) hne

/-! ### The causes (R151) -/

/-- The result `r` of a command run in `s` is a next state whose one new response carries the outcome `e`. -/
def AnsweredWith (e : Err) (s : State) (r : Result) : Prop := ∃ t v, r = .next t ∧ Answered s t e v

section AnsweredWith
variable {e e' : Err} {s t : State} {r : Result} {v : Byte}

theorem AnsweredWith.of_raise (h : r = raise e s) : AnsweredWith e s r :=
  ⟨raised e s, 0, h.trans (raise_eq e s), rfl⟩

theorem AnsweredWith.of_answer (h : r = answer v t) (hrs : t.responses = s.responses) : AnsweredWith .ok s r :=
  ⟨_, v, h.trans (answer_eq v t), congrArg (· ++ _) hrs⟩

/-- A row of the table of R151: one outcome on its condition, another off it. -/
theorem AnsweredWith.of_ite {c : Prop} [Decidable c] (ht : c → AnsweredWith e s r) (hf : ¬ c → AnsweredWith e' s r) :
    AnsweredWith (if c then e else e') s r := by
  split
  next h => exact ht h
  next h => exact hf h

end AnsweredWith

open AnsweredWith in
/-- Every command is answered with the outcome that the table of R151 gives it. -/
theorem exec_answeredWith_errorOf (i : Instr) (s : State) : AnsweredWith (errorOf i s) s (exec i s) := by
  cases i with
  | clr => exact of_answer (exec_clr s) rfl
  | push b =>
    refine of_ite (fun hb => of_raise (exec_push_of_not_byte b s hb)) fun hb => ?_
    refine of_ite (fun hl => of_raise (exec_push_of_full b s (by omega) hl)) fun hl => ?_
    exact of_answer (exec_push_of_room b s (by omega) (by omega)) rfl
  | rdb k =>
    exact of_ite (fun hk => of_raise (exec_rdb_of_ge k s hk)) fun hk => of_answer (exec_rdb_of_lt k s (by omega)) rfl
  | deg x => exact of_answer (exec_deg x s) rfl
  | gmul a b =>
    exact of_ite (fun h => of_raise (exec_gmul_of_not_bytes a b s h)) fun h =>
      of_answer (exec_gmul_of_bytes a b s (by omega) (by omega)) rfl
  | ginv a =>
    refine of_ite (fun h => of_raise ?_) fun h => ?_
    · rcases h with ha | ha
      · exact exec_ginv_of_not_byte a s ha
      · have hzero : lowByte a = 0 := (lowByte_eq_zero_iff a (by omega)).2 ha
        exact exec_ginv_of_none a s (hzero ▸ ginv_zero)
    · have ha : a.toNat ≤ 255 := by omega
      have hne : lowByte a ≠ 0 := fun hz => h (.inr ((lowByte_eq_zero_iff a ha).1 hz))
      obtain ⟨b, hb, -⟩ := exists_ginv hne
      exact of_answer (exec_ginv_of_some a s ha b hb) rfl
  | xsum => exact of_answer (exec_xsum s) rfl
  | ldwa =>
    exact of_ite (fun h => of_raise (exec_ldwa_of_not_word s h)) fun h => of_answer (exec_ldwa_of_word s (by omega)) rfl
  | ldwb =>
    exact of_ite (fun h => of_raise (exec_ldwb_of_not_word s h)) fun h => of_answer (exec_ldwb_of_word s (by omega)) rfl
  | wmul => exact of_answer (exec_wmul s) (storeWord_responses _ s)
  | sboxv h l =>
    exact of_ite (fun g => of_raise (exec_sboxv_of_not_nibbles h l s g)) fun g =>
      of_answer (exec_sboxv_of_nibbles h l s (by omega) (by omega)) rfl
  | sbgen => exact of_answer (exec_sbgen s) (ensureSbox_responses s)
  | sbrd h l =>
    exact of_ite (fun g => of_raise (exec_sbrd_of_not_nibbles h l s g)) fun g =>
      of_answer (exec_sbrd_of_nibbles h l s (by omega) (by omega)) (ensureSbox_responses s)
  | ldst =>
    exact of_ite (fun h => of_raise (exec_ldst_of_not_block s h)) fun h =>
      of_answer (exec_ldst_of_block s (by omega)) rfl
  | rdst => exact of_answer (exec_rdst s) (storeBlock_responses _ s)
  | sub => exact of_answer (exec_sub s) (ensureSbox_responses s)
  | shr => exact of_answer (exec_shr s) rfl
  | mix => exact of_answer (exec_mix s) rfl
  | dbl =>
    exact of_ite (fun h => of_raise (exec_dbl_of_not_block s h)) fun h =>
      of_answer (exec_dbl_of_block s (by omega)) (writeBlock_responses _ s)
  | dblx =>
    exact of_ite (fun h => of_raise (exec_dblx_of_not_block s h)) fun h =>
      of_answer (exec_dblx_of_block s (by omega)) (writeBlock_responses _ s)

/-- No command raises `IllegalCommand` of its own. -/
theorem errorOf_ne_illegalCommand (i : Instr) (s : State) : errorOf i s ≠ .illegalCommand := by
  unfold errorOf
  repeat' split
  all_goals decide

/-- The table of R151 does not ask for the host's moves to come. -/
theorem errorOf_of_pending (i : Instr) (s : State) (rest : List HostMove) :
    errorOf i { s with pending := rest } = errorOf i s := by
  cases i <;> rfl

/-- Settles O13: a word that no row accepts raises `IllegalCommand`; any other spells a command, and is answered with
what the table of R151 gives that command. -/
theorem errorsHaveExactlyTheListedCauses : Obligations.ErrorsHaveExactlyTheListedCauses := by
  unfold Obligations.ErrorsHaveExactlyTheListedCauses
  intro s w rest hp
  obtain ⟨decodes_iff, -⟩ := decodeAgreesWithTheOpcodeMap w
  cases hw : wellFormed w with
  | false =>
    refine ⟨_, 0, .illegalCommand, step_of_ill_formed hp hw, rfl, ⟨fun _ => rfl, fun _ => rfl⟩, fun i hd => ?_⟩
    exact absurd (decodes_iff.1 ⟨i, hd⟩) (Bool.eq_false_iff.1 hw)
  | true =>
    obtain ⟨i, hd⟩ := decodes_iff.2 hw
    obtain ⟨t, v, ht, hv⟩ := exec_answeredWith_errorOf i { s with pending := rest }
    rw [errorOf_of_pending] at hv
    refine ⟨t, v, errorOf i s, (step_of_decoded hp hd).trans ht, hv, ?_, fun j hj => ?_⟩
    · exact ⟨fun h => absurd h (errorOf_ne_illegalCommand i s), nofun⟩
    · rw [Except.ok.inj (hd.symm.trans hj)]

/-! ### Priority (R153) -/

/-- Settles O14: a word is checked before its operands, and `PUSH` checks its operand before the length. -/
theorem oneErrorIsReportedByPriority : Obligations.OneErrorIsReportedByPriority := by
  unfold Obligations.OneErrorIsReportedByPriority
  exact ⟨fun s rest hp => step_of_ill_formed hp (by decide), fun s w rest => step_of_ill_formed,
    fun s b hb _ => (exec_push_of_not_byte b s hb).trans (raise_eq _ s)⟩

end Sys2Proof.Machine

/-! ## Reset and hazards (spec/70_reset_and_hazards.md): waiting, and reset between two commands (R180, R188)

With nothing presented the engine waits; a reset leaves the next reset state around the host's side of the port. -/
namespace Sys2Proof.Machine

/-- Settles O8: with no move of the host left, the engine waits. -/
theorem stepWaitsForTheHost : Obligations.StepWaitsForTheHost := by
  unfold Obligations.StepWaitsForTheHost
  exact fun _ => step_of_waiting

/-- Settles O9: the engine takes the move and becomes the next reset state, with the host's side of the port as it was. -/
theorem hostResetLeavesAResetState : Obligations.HostResetLeavesAResetState := by
  unfold Obligations.HostResetLeavesAResetState
  intro s rest hp
  have hstep : step s = .next (State.afterReset (s.resets + 1) rest s.responses) :=
    (step_of_reset hp).trans (hostReset_eq _)
  exact ⟨_, hstep, afterReset_len .., afterReset_sbv .., afterReset_responses .., afterReset_pending ..⟩

end Sys2Proof.Machine
